-- ==== Sys2Proof/Word.lean ====
section
/-! DEFINITION. The word types of BXCORE: the byte, the 12-bit tick, the 32-bit command word, and the
pair of ticks that one entry of the channel bank holds. -/

namespace Sys2Proof

/-- A byte of the framebuffer or of the font; bit 0 is its least significant bit (R13). -/
abbrev Byte := BitVec 8

/-- A 12-bit tick value in [0, 4095] (R20). -/
abbrev Tick := BitVec 12

/-- One 32-bit command word `cw`, handed to the sequencer whole (R80). -/
abbrev CmdWord := BitVec 32

/-- One entry of the channel bank: the on-tick and the off-tick of a channel (R20). -/
structure TickPair where
  on  : Tick
  off : Tick
  deriving DecidableEq, Repr, Inhabited

end Sys2Proof
end

