-- ==== Sys2Proof/Syntax.lean ====
section
/-! DEFINITION. The commands of BXCORE: one constructor per row of the opcode map (R83), each with the operands
of its row, as the unsigned numbers they are used as (R85). -/

namespace Sys2Proof

/-- A command. Operands are named as in the opcode map of R83 and its qualifier table R84: a `Bool` for a
one-bit field, a number for a wider one. A value the source calls invalid (motor 0, code 10) is still a
legal operand (R88). DEDUCED, safe: log entry 7. -/
inductive Instr where
  /-- DRVM: `q` = direction (false CW, true CCW), `a` = motor index, `c` = speed. -/
  | drvm (dir : Bool) (motor speed : Nat)
  /-- MEC: `a` = direction code, `c` = speed. -/
  | mec (code speed : Nat)
  /-- NRM: `a` = direction code, `c` = speed. -/
  | nrm (code speed : Nat)
  /-- STPM: `a` = motor index. -/
  | stpm (motor : Nat)
  /-- STPA: no operands. -/
  | stpa
  /-- SRV: `a` = servo index, `c` = angle in degrees. -/
  | srv (index angle : Nat)
  /-- STEP: `q` = direction, `a` = pair index, `b[0]` = model (false 28-step, true 42-step). -/
  | step (dir : Bool) (pair : Nat) (model : Bool)
  /-- SETPX: `q` = colour, `a` = x, `b` = y. -/
  | setpx (colour : Bool) (x y : Nat)
  /-- DRAWCH: `q` = colour (false inverted), `a` = character code, `b` = column in pixels, `c` = row in pages. -/
  | drawch (colour : Bool) (ch col row : Nat)
  /-- PRINTCH: `q` = colour (false inverted), `a` = character code. -/
  | printch (colour : Bool) (ch : Nat)
  /-- NEWLINE: no operands. -/
  | newline
  /-- HLINE: `q` = colour, `a` = x, `b` = y, `c` = length in pixels. -/
  | hline (colour : Bool) (x y len : Nat)
  /-- VLINE: `q` = colour, `a` = x, `b` = y, `c` = length in pixels. -/
  | vline (colour : Bool) (x y len : Nat)
  /-- RECT (format R): `q` = colour, two opposite corners. -/
  | rect (colour : Bool) (x1 y1 x2 y2 : Nat)
  /-- CLEAR: no operands. -/
  | clear
  /-- INVERT: `q` = on. -/
  | invert (on : Bool)
  /-- DISPLAY: `q` = on. -/
  | display (on : Bool)
  /-- FLUSH: no operands. -/
  | flush
  /-- CFG: `c[0]` = the new value of `cfg.DBL`. -/
  | cfg (dbl : Bool)
  deriving DecidableEq, Repr

end Sys2Proof
end

