-- ==== Sys2Proof/WellFormed.lean ====
section
/-! DEFINITION. Which commands have an encoding: every operand fits its field (R81, R82, R85). -/

namespace Sys2Proof

/-- The number fits a byte field of format S (R81). -/
def fitsByte (n : Nat) : Bool := n < 256

/-- The number fits a column field of format R: 7 bits, 0 to 127 (R82). -/
def fitsX (n : Nat) : Bool := n < 128

/-- The number fits a pixel-row field of format R: 6 bits, 0 to 63 (R82). -/
def fitsY (n : Nat) : Bool := n < 64

/-- A command is well-formed when each of its operands fits its field of the command word (R81, R82, R85). -/
def WellFormed : Instr → Bool
  | .drvm _ motor speed => fitsByte motor && fitsByte speed
  | .mec code speed => fitsByte code && fitsByte speed
  | .nrm code speed => fitsByte code && fitsByte speed
  | .stpm motor => fitsByte motor
  | .stpa => true
  | .srv index angle => fitsByte index && fitsByte angle
  | .step _ pair _ => fitsByte pair
  | .setpx _ x y => fitsByte x && fitsByte y
  | .drawch _ ch col row => fitsByte ch && fitsByte col && fitsByte row
  | .printch _ ch => fitsByte ch
  | .newline => true
  | .hline _ x y len => fitsByte x && fitsByte y && fitsByte len
  | .vline _ x y len => fitsByte x && fitsByte y && fitsByte len
  | .rect _ x1 y1 x2 y2 => fitsX x1 && fitsY y1 && fitsX x2 && fitsY y2
  | .clear => true
  | .invert _ => true
  | .display _ => true
  | .flush => true
  | .cfg _ => true

end Sys2Proof
end

