-- ==== Sys2Proof/Decode.lean ====
section
/-! DEFINITION. The command encoding: the fields of formats S and R (R81, R82, R85), the opcode map (R83),
the decoder, total on every word and rejecting an illegal one by name (R86, R87), and the encoder (R91). -/

namespace Sys2Proof

/-! ### Fields of a command word (R81, R82, R85) -/

/-- `op = cw[31:27]`. -/
def fieldOp (w : CmdWord) : BitVec 5 := w.extractLsb' 27 5

/-- `q = cw[26]`. -/
def fieldQ (w : CmdWord) : Bool := w.getLsbD 26

/-- `rsv = cw[25:24]` of format S. -/
def fieldRsv (w : CmdWord) : BitVec 2 := w.extractLsb' 24 2

/-- `a = cw[23:16]`. -/
def fieldA (w : CmdWord) : Nat := (w.extractLsb' 16 8).toNat

/-- `b = cw[15:8]`. -/
def fieldB (w : CmdWord) : Nat := (w.extractLsb' 8 8).toNat

/-- `c = cw[7:0]`. -/
def fieldC (w : CmdWord) : Nat := (w.extractLsb' 0 8).toNat

/-- `x1 = cw[25:19]` of format R. -/
def fieldX1 (w : CmdWord) : Nat := (w.extractLsb' 19 7).toNat

/-- `y1 = cw[18:13]` of format R. -/
def fieldY1 (w : CmdWord) : Nat := (w.extractLsb' 13 6).toNat

/-- `x2 = cw[12:6]` of format R. -/
def fieldX2 (w : CmdWord) : Nat := (w.extractLsb' 6 7).toNat

/-- `y2 = cw[5:0]` of format R. -/
def fieldY2 (w : CmdWord) : Nat := (w.extractLsb' 0 6).toNat

/-! ### The opcode map (R83) -/

/-- The rows of the opcode map, in the order of R83. -/
inductive Row where
  | DRVM | MEC | NRM | STPM | STPA | SRV | STEP
  | SETPX | DRAWCH | PRINTCH | NEWLINE | HLINE | VLINE | RECT | CLEAR | INVERT | DISPLAY | FLUSH | CFG
  deriving DecidableEq, Repr

/-- All rows of the opcode map. -/
def allRows : List Row :=
  [.DRVM, .MEC, .NRM, .STPM, .STPA, .SRV, .STEP, .SETPX, .DRAWCH, .PRINTCH, .NEWLINE, .HLINE, .VLINE, .RECT,
   .CLEAR, .INVERT, .DISPLAY, .FLUSH, .CFG]

/-- The column `op` of R83. -/
def rowOp : Row → BitVec 5
  | .DRVM    => 0b00001
  | .MEC     => 0b00010
  | .NRM     => 0b00011
  | .STPM    => 0b00100
  | .STPA    => 0b00101
  | .SRV     => 0b00110
  | .STEP    => 0b00111
  | .SETPX   => 0b10000
  | .DRAWCH  => 0b10001
  | .PRINTCH => 0b10010
  | .NEWLINE => 0b10011
  | .HLINE   => 0b10100
  | .VLINE   => 0b10101
  | .RECT    => 0b10110
  | .CLEAR   => 0b10111
  | .INVERT  => 0b11000
  | .DISPLAY => 0b11001
  | .FLUSH   => 0b11010
  | .CFG     => 0b11011

/-- The column `match` of R83. -/
def rowMatch : Row → CmdWord
  | .DRVM    => 0x08000000
  | .MEC     => 0x10000000
  | .NRM     => 0x18000000
  | .STPM    => 0x20000000
  | .STPA    => 0x28000000
  | .SRV     => 0x30000000
  | .STEP    => 0x38000000
  | .SETPX   => 0x80000000
  | .DRAWCH  => 0x88000000
  | .PRINTCH => 0x90000000
  | .NEWLINE => 0x98000000
  | .HLINE   => 0xA0000000
  | .VLINE   => 0xA8000000
  | .RECT    => 0xB0000000
  | .CLEAR   => 0xB8000000
  | .INVERT  => 0xC0000000
  | .DISPLAY => 0xC8000000
  | .FLUSH   => 0xD0000000
  | .CFG     => 0xD8000000

/-- The column `mask` of R83. -/
def rowMask : Row → CmdWord
  | .DRVM    => 0xFB00FF00
  | .MEC     => 0xFF00FF00
  | .NRM     => 0xFF00FF00
  | .STPM    => 0xFF00FFFF
  | .STPA    => 0xFFFFFFFF
  | .SRV     => 0xFF00FF00
  | .STEP    => 0xFB00FEFF
  | .SETPX   => 0xFB0000FF
  | .DRAWCH  => 0xFB000000
  | .PRINTCH => 0xFB00FFFF
  | .NEWLINE => 0xFFFFFFFF
  | .HLINE   => 0xFB000000
  | .VLINE   => 0xFB000000
  | .RECT    => 0xF8000000
  | .CLEAR   => 0xFFFFFFFF
  | .INVERT  => 0xFBFFFFFF
  | .DISPLAY => 0xFBFFFFFF
  | .FLUSH   => 0xFFFFFFFF
  | .CFG     => 0xFFFFFFFE

/-- The column `operands` of R83: the command of a row with the fields of the word as its operands. -/
def rowInstr (w : CmdWord) : Row → Instr
  | .DRVM    => .drvm (fieldQ w) (fieldA w) (fieldC w)
  | .MEC     => .mec (fieldA w) (fieldC w)
  | .NRM     => .nrm (fieldA w) (fieldC w)
  | .STPM    => .stpm (fieldA w)
  | .STPA    => .stpa
  | .SRV     => .srv (fieldA w) (fieldC w)
  | .STEP    => .step (fieldQ w) (fieldA w) (w.getLsbD 8)
  | .SETPX   => .setpx (fieldQ w) (fieldA w) (fieldB w)
  | .DRAWCH  => .drawch (fieldQ w) (fieldA w) (fieldB w) (fieldC w)
  | .PRINTCH => .printch (fieldQ w) (fieldA w)
  | .NEWLINE => .newline
  | .HLINE   => .hline (fieldQ w) (fieldA w) (fieldB w) (fieldC w)
  | .VLINE   => .vline (fieldQ w) (fieldA w) (fieldB w) (fieldC w)
  | .RECT    => .rect (fieldQ w) (fieldX1 w) (fieldY1 w) (fieldX2 w) (fieldY2 w)
  | .CLEAR   => .clear
  | .INVERT  => .invert (fieldQ w)
  | .DISPLAY => .display (fieldQ w)
  | .FLUSH   => .flush
  | .CFG     => .cfg (w.getLsbD 0)

/-! ### The decoder (R86, R87) -/

/-- Why a word is illegal, in the cases of R87. No meaning reads the reason. DEDUCED, safe: log entry 5. -/
inductive Illegal where
  /-- `op` is assigned to no command. -/
  | unassignedOp
  /-- `rsv` is not 00. -/
  | reservedBits
  /-- `q` = 1 on a command that has no qualifier. -/
  | qualifierSet
  /-- CFG with the place kept for the zoom flag set. -/
  | zoomBit
  /-- Another must-be-zero operand bit is set. -/
  | operandBits
  deriving DecidableEq, Repr

/-- The row whose `op` the word carries, if any. -/
def rowOf (w : CmdWord) : Option Row := allRows.find? fun r => rowOp r == fieldOp w

/-- The word is a command of the row: `cw & mask = match` (R83). -/
def inRow (w : CmdWord) (r : Row) : Bool := w &&& rowMask r == rowMatch r

/-- The commands that have a qualifier `q` (R84). -/
def hasQ : Row → Bool
  | .DRVM | .STEP | .SETPX | .HLINE | .VLINE | .RECT | .DRAWCH | .PRINTCH | .INVERT | .DISPLAY => true
  | .MEC | .NRM | .STPM | .STPA | .SRV | .NEWLINE | .CLEAR | .FLUSH | .CFG => false

/-- The first reason of R87 for which a word of row `r`'s `op` is illegal. -/
def illegalReason (w : CmdWord) (r : Row) : Illegal :=
  if fieldRsv w ≠ 0 then .reservedBits
  else if fieldQ w && !hasQ r then .qualifierSet
  else if r = .CFG ∧ w.getLsbD 1 then .zoomBit
  else .operandBits

/-- The decoder: the command of the one row the word belongs to, or the reason it belongs to none (R86, R87). -/
def decode (w : CmdWord) : Except Illegal Instr :=
  match rowOf w with
  | none => .error .unassignedOp
  | some r => if inRow w r then .ok (rowInstr w r) else .error (illegalReason w r)

/-- The decoder on a row of `spec/opcode_table.json`: `w` is the word's bits, bit 0 the least significant, and
every bit above `nbits` is 0. A command is one 32-bit number and has no byte order (R58, R80). -/
def decodeTableWord (nbits w : Nat) : Option Instr := (decode (BitVec.ofNat 32 (w % 2 ^ nbits))).toOption

/-! ### The encoder (R81, R82, R91) -/

/-- A word of format S, its fields from bit 31 down to bit 0 (R81). -/
def formatS (op : BitVec 5) (q : Bool) (a b c : Nat) : CmdWord :=
  op ++ BitVec.ofBool q ++ 0#2 ++ BitVec.ofNat 8 a ++ BitVec.ofNat 8 b ++ BitVec.ofNat 8 c

/-- A word of format R, its fields from bit 31 down to bit 0 (R82). -/
def formatR (op : BitVec 5) (q : Bool) (x1 y1 x2 y2 : Nat) : CmdWord :=
  op ++ BitVec.ofBool q ++ BitVec.ofNat 7 x1 ++ BitVec.ofNat 6 y1 ++ BitVec.ofNat 7 x2 ++ BitVec.ofNat 6 y2

/-- The word of a command, absent operands 0 (R83, R91). -/
def encode : Instr → CmdWord
  | .drvm dir motor speed => formatS 0b00001 dir motor 0 speed
  | .mec code speed => formatS 0b00010 false code 0 speed
  | .nrm code speed => formatS 0b00011 false code 0 speed
  | .stpm motor => formatS 0b00100 false motor 0 0
  | .stpa => formatS 0b00101 false 0 0 0
  | .srv index angle => formatS 0b00110 false index 0 angle
  | .step dir pair model => formatS 0b00111 dir pair model.toNat 0
  | .setpx colour x y => formatS 0b10000 colour x y 0
  | .drawch colour ch col row => formatS 0b10001 colour ch col row
  | .printch colour ch => formatS 0b10010 colour ch 0 0
  | .newline => formatS 0b10011 false 0 0 0
  | .hline colour x y len => formatS 0b10100 colour x y len
  | .vline colour x y len => formatS 0b10101 colour x y len
  | .rect colour x1 y1 x2 y2 => formatR 0b10110 colour x1 y1 x2 y2
  | .clear => formatS 0b10111 false 0 0 0
  | .invert on => formatS 0b11000 on 0 0 0
  | .display on => formatS 0b11001 on 0 0 0
  | .flush => formatS 0b11010 false 0 0 0
  | .cfg dbl => formatS 0b11011 false 0 0 dbl.toNat

end Sys2Proof
end

