-- ==== Sys2Proof/Machine/Params.lean ====
section
/-! DEFINITION. The fixed parameters the source settles (R9), under the spec's names. `N_CH`, `N_MOTOR`,
`FB_PAGES` and `GLYPH_BYTES` are the sizes of the types `Fin 16`, `Motor`, the pages 0 to 7 and `Fin 5`. -/

namespace Sys2Proof.Machine

/-- `TICK_MAX`: the largest 12-bit tick value (R9). -/
@[simp] abbrev tickMax : Nat := 4095

/-- `SPEED_SCALE` (R9). -/
@[simp] abbrev speedScale : Nat := 16

/-- `SERVO_CH_BASE`: servo channel = servo index + 7 (R9). -/
@[simp] abbrev servoChBase : Nat := 7

/-- `ANGLE_MAX` (R9). -/
@[simp] abbrev angleMax : Nat := 180

/-- `SERVO_US_MIN`, microseconds (R9). -/
@[simp] abbrev servoUsMin : Nat := 600

/-- `SERVO_US_SPAN`, microseconds (R9). -/
@[simp] abbrev servoUsSpan : Nat := 1800

/-- `PWM_PERIOD_US`: 50 Hz, in microseconds (R9). -/
@[simp] abbrev pwmPeriodUs : Nat := 20000

/-- `TICKS_PER_PERIOD` (R9). -/
@[simp] abbrev ticksPerPeriod : Nat := 4096

/-- `FB_W`: columns of the picture and bytes of a page (R9). -/
@[simp] abbrev fbW : Nat := 128

/-- `FB_H`: pixel rows of the picture (R9). -/
@[simp] abbrev fbH : Nat := 64

/-- `FB_BYTES`: 1 header byte and 1024 payload bytes (R9). -/
@[simp] abbrev fbBytes : Nat := 1025

/-- `FB_HDR_TAG` (R9). -/
@[simp] abbrev fbHdrTag : Byte := 0x40

/-- `CH_FIRST`: the least character code the font has (R9). -/
@[simp] abbrev chFirst : Nat := 32

/-- `CH_LAST`: the greatest character code the font has (R9). -/
@[simp] abbrev chLast : Nat := 127

/-- `ADV_SINGLE`: cursor advance of a single-size glyph (R9). -/
@[simp] abbrev advSingle : Nat := 6

/-- `ADV_DOUBLE`: cursor advance of a double-size glyph (R9). -/
@[simp] abbrev advDouble : Nat := 12

/-- `WRAP_COL`: the cursor wraps when its column exceeds it (R9). -/
@[simp] abbrev wrapCol : Nat := 120

/-- `ROW_LAST`: the picture scrolls when the cursor's row exceeds it (R9). -/
@[simp] abbrev rowLast : Nat := 7

end Sys2Proof.Machine
end

