-- ==== Sys2Proof/Config.lean ====
section
/-! DEFINITION. What is fixed for one machine and left open by the spec: the shapes of the routing ROMs and of
the font (R10, R37, R71, R121, R122, R128), the machine's own ROM contents as free values, and the
free values for everything the reset leaves unspecified (R40). -/

namespace Sys2Proof.Config

/-- The four motors, numbered 1 to 4 (R9, R113). -/
inductive Motor where
  | m1 | m2 | m3 | m4
  deriving DecidableEq, Repr, Inhabited

/-- A per-motor action: drive the positive channel, drive the negative channel, drive neither (R118). -/
inductive Action where
  | P | N | Z
  deriving DecidableEq, Repr, Inhabited

/-- The actions an entry of `NRM_ROM` may hold: never Z (R122). -/
inductive DriveAction where
  | P | N
  deriving DecidableEq, Repr, Inhabited

/-- The nine mecanum directions, in the order of their codes 1 to 9 (R119). -/
inductive MecDir where
  | forwardLeft | forward | forwardRight | left | stop | right | backwardLeft | backward | backwardRight
  deriving DecidableEq, Repr, Inhabited

/-- The four directions of the normal drive, in the order of their codes 1 to 4 (R122). -/
inductive NrmDir where
  | forward | backward | clockwise | counterclockwise
  deriving DecidableEq, Repr, Inhabited

/-- The two stepper models (R128): model 0 is the 28-step one, model 1 the 42-step one. -/
inductive StepModel where
  | m28 | m42
  deriving DecidableEq, Repr, Inhabited

/-- The two stepper pairs, numbered 1 and 2 (R128). -/
inductive StepPair where
  | p1 | p2
  deriving DecidableEq, Repr, Inhabited

/-- One triple `(ch, on, off)` of `STEP_ROM`: a channel 0 to 15 and two 12-bit ticks (R128). -/
structure StepEntry where
  ch  : Fin 16
  on  : Tick
  off : Tick
  deriving DecidableEq, Repr, Inhabited

/-- The ROM parameters of R10 that commands read, in the shapes the spec gives them. A ROM of another shape
cannot be written as a value of this type, which is how the model refuses one (R225 (c)).
`mecOpen` is the open part of `MEC_ROM`: the row of code 2 is the source's and is not taken from it
(R121, `Machine.mecRom`). -/
structure Roms where
  /-- The rows of `MEC_ROM` other than the row of code 2. -/
  mecOpen : MecDir → Motor → Action
  /-- `NRM_ROM[d][m]`. -/
  nrm     : NrmDir → Motor → DriveAction
  /-- `STEP_ROM[model][pair][dir][k]`. -/
  step    : StepModel → StepPair → Bool → Fin 4 → StepEntry
  /-- `FONT_ROM[k]`, 0 ≤ k ≤ 479. -/
  font    : Fin 480 → Byte
  deriving Inhabited

/-- The ROM contents of this machine: open parameters of the spec (R10, R121, R122, R128, R71), so free
values: what is proved of them holds for every ROM image. DESIGN CHOICE, safe: log entry 6. -/
opaque roms : Roms

/-- The unspecified pair that channel `ch` holds after reset (R40, U2): a free value, log entry 9. -/
opaque bankReset : (ch : Nat) → TickPair

/-- The unspecified byte that payload index `i`, 1 to 1024, holds after reset (R40, U3): a free value, log entry 10. -/
opaque fbReset : (i : Nat) → Byte

/-- The display's two power states (R34). -/
inductive Power where
  | on | off
  deriving DecidableEq, Repr, Inhabited

/-- The display's two polarity states (R34). -/
inductive Polarity where
  | normal | inverted
  deriving DecidableEq, Repr, Inhabited

/-- The unspecified power state of the display after reset (R40, U4): a free value, log entry 11. -/
opaque dispPowerReset : Power

/-- The unspecified polarity of the display after reset (R40, U4): a free value, log entry 11. -/
opaque dispPolarityReset : Polarity

/-- The bus primitives the source gives as contracts only (R220). The events of `Machine.Event` stand for
sequences of them whose bytes the spec leaves open (R5 (b), R38). -/
inductive BusOp where
  | writeRegister (deviceAddr : BitVec 7) (registerByte valueByte : Byte)
  | writeBuffer (deviceAddr : BitVec 7) (bytes : List Byte)
  | readRegister (deviceAddr : BitVec 7) (registerByte : Byte)
  | sleepMicroseconds (n : Nat)
  deriving DecidableEq, Repr

/-- `PWM_INIT_SEQ`, what the event `pwmInit` stands for (R10, R110, U5): open, log entry 16. -/
opaque pwmInitSeq : List BusOp

/-- `DISP_INIT_SEQ`, what the event `dispInit` stands for (R10, R150, U5): open, log entry 16. -/
opaque dispInitSeq : List BusOp

/-- `PWM_ADDR`, the fixed 7-bit bus address of the PWM-bank chip (R10, R220): open; no rule depends on it, log entry 16. -/
opaque pwmAddr : BitVec 7

/-- `DISP_ADDR`, the fixed 7-bit bus address of the display chip (R10, R220): open; no rule depends on it, log entry 16. -/
opaque dispAddr : BitVec 7

/-- `DISP_CMD_INVERT[on]`, the byte behind the event `dispCmdInvert` (R10, R188): open, log entry 16. -/
opaque dispCmdInvertByte : (on : Bool) → Byte

/-- `DISP_CMD_POWER[on]`, the byte behind the event `dispCmdPower` (R10, R189): open, log entry 16. -/
opaque dispCmdPowerByte : (on : Bool) → Byte

end Sys2Proof.Config
end

