-- ==== Sys2Proof/Machine/State.lean ====
section
/-! DEFINITION. The state of BXCORE as plain data (`10_state.md`), the output events, the reasons a step can stop,
and the state right after reset (R40). -/

namespace Sys2Proof.Machine
open Sys2Proof.Config (Power Polarity)

/-- An output event: one or more bus writes whose bytes the spec does not give (R38). -/
inductive Event where
  /-- The PWM bank's device-init sequence ran. -/
  | pwmInit
  /-- Channel `ch` was given the pair `(on, off)`. -/
  | pwmSet (ch : Fin 16) (on off : Tick)
  /-- The display's device-init sequence ran. -/
  | dispInit
  /-- The listed payload bytes were sent to the display at column `col` of page `page`. -/
  | dispStream (col page : Nat) (bytes : List Byte)
  /-- The whole 1025-byte buffer, header first, was sent to the display. -/
  | dispFlush (image : List Byte)
  /-- `DispCmd(INVERT, on)`: the polarity command was sent. -/
  | dispCmdInvert (on : Bool)
  /-- `DispCmd(POWER, on)`: the power command was sent. -/
  | dispCmdPower (on : Bool)
  deriving DecidableEq, Repr

/-- The framebuffer's known bytes, as pairs of an index and a byte in one canonical form (`Memory.wf`).
An index that is not listed reads as `Memory.unlisted` (Ops.lean) says. DESIGN CHOICE, safe: log entry 1. -/
abbrev Memory := List Host.Cell

/-- All the state the spec gives the machine, and the host's command sequence. -/
structure State where
  /-- `bank`: 16 channels, each a pair of 12-bit ticks (R20). -/
  bank : Vector TickPair 16
  /-- `pwm_init`: the PWM bank has been initialised (R23). -/
  pwmInit : Bool
  /-- `disp_init`: the display has been initialised (R24). -/
  dispInit : Bool
  /-- `fb`: the known bytes of the framebuffer (R28, R40). -/
  fb : Memory
  /-- `cx`: the cursor's column in pixels (R31). -/
  cx : BitVec 8
  /-- `cy`: the cursor's row in pages (R31). -/
  cy : BitVec 4
  /-- `cfg.DBL`: the double-size mode (R32). -/
  cfgDbl : Bool
  /-- `cfg.ZOOM`: the zoom mode, 0 in every configuration the spec gives a meaning (R33, R200). -/
  cfgZoom : Bool
  /-- `disp_power`: the display's power state (R34). -/
  dispPower : Power
  /-- `disp_polarity`: the display's polarity state (R34). -/
  dispPolarity : Polarity
  /-- `trace`: the output events, oldest first (R38). -/
  trace : List Event
  /-- The command words the host has still to hand over, the next one first. Host state, not the unit's (R27);
  the model's own field. DESIGN CHOICE, safe: log entry 2. -/
  commands : List CmdWord
  deriving DecidableEq, Repr

/-- Why the machine stops. -/
inductive Fault where
  /-- `U_FB_OOB` (R56): raised by SETPX, DRAWCH and PRINTCH when a pixel or a glyph would leave the picture, where
  the source gives no behaviour. Safe: the model stops and says nothing of what follows. DEDUCED: log entry 4. -/
  | fbOob
  deriving DecidableEq, Repr

/-- Why the model gives a step no meaning. -/
inductive Refusal where
  /-- Raised by an arm of `exec` whose command has no meaning in the model; no arm does so. Safe. -/
  | notModelled (mnemonic : String)
  /-- Raised by `step` and by the glyph drawing when `cfg.ZOOM` = 1, a configuration the spec says a model must
  refuse (R200, R225 (c)). No command leads to it. DEDUCED, safe: log entry 3. -/
  | zoomConfigured
  deriving DecidableEq, Repr

/-- The outcome of a command or of a step. -/
abbrev Outcome := Host.Outcome State Fault Refusal

/-- The machine right after reset (R40). The bank, the payload, and the display's power and polarity are
unspecified: their values are free values of `Config`. No command has been handed over. DESIGN CHOICE: log entries 9 to
11, and 2 for the empty command sequence. -/
def State.reset : State where
  bank := #v[Config.bankReset 0, Config.bankReset 1, Config.bankReset 2, Config.bankReset 3,
    Config.bankReset 4, Config.bankReset 5, Config.bankReset 6, Config.bankReset 7,
    Config.bankReset 8, Config.bankReset 9, Config.bankReset 10, Config.bankReset 11,
    Config.bankReset 12, Config.bankReset 13, Config.bankReset 14, Config.bankReset 15]
  pwmInit := false
  dispInit := false
  fb := []
  cx := 0
  cy := 0
  cfgDbl := false
  cfgZoom := false
  dispPower := Config.dispPowerReset
  dispPolarity := Config.dispPolarityReset
  trace := []
  commands := []

end Sys2Proof.Machine
end

