-- ==== Sys2Proof/Machine/Flags.lean ====
section
/-! DEFINITION. The trace and the one-bit flags: emitting an event (R38), the two lazy initialisations
(R110, R150), and the configuration flag (R187). -/

namespace Sys2Proof.Machine

/-- `Emit(e)` appends `e` to the trace (R38). Every event reaches its device (R212): DEDUCED, unsafe, log entry 15. -/
def emit (e : Event) (s : State) : State := { s with trace := s.trace ++ [e] }

/-- `PwmLazyInit()`: the first legal router command initialises the PWM bank (R110). -/
def pwmLazyInit (s : State) : State :=
  if s.pwmInit then s else { emit .pwmInit s with pwmInit := true }

/-- `DispLazyInit()`: the first legal renderer command except CFG initialises the display (R150). -/
def dispLazyInit (s : State) : State :=
  if s.dispInit then s else { emit .dispInit s with dispInit := true }

/-- `cfg.DBL <- v` (R187). -/
def setDbl (v : Bool) (s : State) : State := { s with cfgDbl := v }

/-- The cursor advance of one glyph: 12 when `cfg.DBL` = 1, else 6 (R156). -/
def advance (dbl : Bool) : Nat := if dbl then advDouble else advSingle

end Sys2Proof.Machine
end

