-- ==== Sys2Proof/Machine/Operands.lean ====
section
/-! DEFINITION. What an operand means: the indices and codes and which of them are valid (R113, R119, R122, R127),
the clamp (R12), the motor-to-channel map (R112), direction values (R114), the speed and angle maps (R111, R125), and
the glyph index (R151). -/

namespace Sys2Proof.Machine
open Sys2Proof.Config

/-- `clamp(v, lo, hi)` (R12). -/
def clamp (v lo hi : Int) : Int := if v < lo then lo else if v > hi then hi else v

/-! ### Motors and channels -/

/-- The motor of a motor index; none when the index is not valid (R113). -/
def motorOf (index : Nat) : Option Motor :=
  match index with
  | 1 => some .m1
  | 2 => some .m2
  | 3 => some .m3
  | 4 => some .m4
  | _ => none

/-- All four motors, ascending (R120, R122, R124). -/
def allMotors : List Motor := [.m1, .m2, .m3, .m4]

/-- The number of a motor (R9). -/
def motorIndex : Motor → Nat
  | .m1 => 1
  | .m2 => 2
  | .m3 => 3
  | .m4 => 4

/-- `pn(m)`, the negative channel of a motor (R112). -/
def pn (m : Motor) : Nat := (4 - motorIndex m) * 2

/-- `pp(m)`, the positive channel of a motor (R112). -/
def pp (m : Motor) : Nat := (4 - motorIndex m) * 2 + 1

/-- The value of a direction operand: CW (`q` = 0) is +1, CCW (`q` = 1) is −1 (R114). -/
def dirValue (q : Bool) : Int := if q then -1 else 1

/-- `dv(m, q)`: motors 3 and 4 have the inverted direction (R114). -/
def dv (m : Motor) (q : Bool) : Int :=
  match m with
  | .m1 | .m2 => dirValue q
  | .m3 | .m4 => -dirValue q

/-- `scale(v)`, the motor-to-duty-cycle map, for any integer (R111). -/
def scale (v : Int) : Int := clamp (v * speedScale) (-tickMax) tickMax

/-- What an action writes as the off-tick of the positive channel, for duty `t` (R118). -/
def posTicks : Action → Nat → Nat
  | .P, t => t
  | .N, _ => 0
  | .Z, _ => 0

/-- What an action writes as the off-tick of the negative channel, for duty `t` (R118). -/
def negTicks : Action → Nat → Nat
  | .P, _ => 0
  | .N, t => t
  | .Z, _ => 0

/-! ### Routing tables -/

/-- The mecanum direction of a code; none when the code is not 1 to 9 (R119). -/
def mecDirOf (code : Nat) : Option MecDir :=
  match code with
  | 1 => some .forwardLeft
  | 2 => some .forward
  | 3 => some .forwardRight
  | 4 => some .left
  | 5 => some .stop
  | 6 => some .right
  | 7 => some .backwardLeft
  | 8 => some .backward
  | 9 => some .backwardRight
  | _ => none

/-- `MEC_ROM[d][m]`: the row of code 2, "forward", is the source's; the other rows are the open parameter (R121). -/
def mecRom (R : Roms) (d : MecDir) (m : Motor) : Action :=
  match d with
  | .forward =>
    match m with
    | .m1 => .P
    | .m2 => .P
    | .m3 => .N
    | .m4 => .N
  | d => R.mecOpen d m

/-- The normal-drive direction of a code; none when the code is not 1 to 4 (R122). -/
def nrmDirOf (code : Nat) : Option NrmDir :=
  match code with
  | 1 => some .forward
  | 2 => some .backward
  | 3 => some .clockwise
  | 4 => some .counterclockwise
  | _ => none

/-- An entry of `NRM_ROM` as an action (R122). -/
def driveAction : DriveAction → Action
  | .P => .P
  | .N => .N

/-! ### Stepper -/

/-- The stepper pair of a pair index; none when it is not 1 or 2 (R127). -/
def stepPairOf (index : Nat) : Option StepPair :=
  match index with
  | 1 => some .p1
  | 2 => some .p2
  | _ => none

/-- The stepper model of the bit `b[0]` (R127). -/
def stepModelOf (b0 : Bool) : StepModel := if b0 then .m42 else .m28

/-! ### Servo -/

/-- `us(ang)`, the pulse width in microseconds of an angle already clamped (R125). -/
def servoUs (ang : Nat) : Nat := ang * servoUsSpan / angleMax + servoUsMin

/-- `pulseTicks(angle)`, the angle-to-tick map (R125). -/
def pulseTicks (angle : Int) : Nat :=
  servoUs (clamp angle 0 angleMax).toNat * ticksPerPeriod / pwmPeriodUs

/-! ### Glyphs -/

/-- `GlyphBase(ch)` (R151). -/
def glyphBase (ch : Nat) : Nat := ((clamp ch chFirst chLast).toNat - chFirst) * 5

/-- The glyph base is at most 475, so the five bytes of a glyph lie in the font (R71, R151). -/
theorem glyphBase_le (ch : Nat) : glyphBase ch ≤ 475 := by
  simp only [glyphBase, clamp, chFirst, chLast]
  split <;> try split
  all_goals omega

/-- The font index of column `i` of the glyph of code `ch`: always within the 480 bytes of `FONT_ROM` (R71). -/
def glyphIndex (ch : Nat) (i : Fin 5) : Fin 480 :=
  ⟨glyphBase ch + i, by have := glyphBase_le ch; omega⟩

/-- Column `i` of the glyph of code `ch`: `FONT_ROM[GlyphBase(ch) + i]` (R151). -/
def glyphByte (R : Roms) (ch : Nat) (i : Fin 5) : Byte := R.font (glyphIndex ch i)

/-- The five columns of a glyph, left to right (R58). -/
def glyphColumns : List (Fin 5) := [0, 1, 2, 3, 4]

/-- The byte a font byte is inverted with: 0xFF when the colour is 0, else 0x00 (R154). -/
def inversion (q : Bool) : Byte := if q then 0x00 else 0xFF

end Sys2Proof.Machine
end

