-- ==== Sys2Proof/Machine/Ops.lean ====
section
/-! DEFINITION. The named operations over the channel bank and the framebuffer (`20_memory.md`): channel writes,
byte reads and writes, pixels, flushes and streams. The spec has no exception to take and none to return
from (R210, R215, R216), so there is no such operation; the one stop is the fault `fbOob` (R56). -/

namespace Sys2Proof.Machine

/-! ### The channel bank -/

/-- The effect of `SetCh` on a channel that exists (R52). -/
def writeCh (ch : Fin 16) (on off : Tick) (s : State) : State :=
  emit (.pwmSet ch on off) { s with bank := s.bank.set ch ⟨on, off⟩ }

/-- `SetCh(ch, on, off)`: a channel outside 0 to 15 is silently dropped (R52). -/
def setCh (ch on off : Nat) (s : State) : State :=
  if h : ch < 16 then writeCh ⟨ch, h⟩ (BitVec.ofNat 12 on) (BitVec.ofNat 12 off) s else s

/-- The pair a channel holds (R20). No command reads it (R21); claims do (R39). -/
def channel (s : State) (ch : Fin 16) : TickPair := s.bank.get ch

/-! ### The framebuffer -/

/-- What an index that is not listed reads as: the header reads as its tag 0x40, and a payload byte has no known
value, since reset leaves it unspecified (R40). -/
def Memory.unlisted (i : Nat) : Option Byte := if i = 0 then some 0x40 else none

/-- The canonical form: indices strictly rising and at most 1024 (R28), no entry equal to what an unlisted index
reads as. -/
abbrev Memory.wf (m : Memory) : Prop :=
  (m.map Prod.fst).Pairwise (· < ·) ∧ ∀ c ∈ m, c.1 ≤ 1024 ∧ Memory.unlisted c.1 ≠ some c.2

/-- The byte listed for an index. -/
def Memory.lookup : Memory → Nat → Option Byte
  | [], _ => none
  | (j, v) :: m, i => if j = i then some v else Memory.lookup m i

/-- The known byte at an index, if it is known: the byte last written there, or what an unlisted index reads as. -/
def Memory.read? (m : Memory) (i : Nat) : Option Byte := (m.lookup i).or (Memory.unlisted i)

/-- List a byte for an index, in the index's place. -/
def Memory.insert (i : Nat) (v : Byte) : Memory → Memory
  | [] => [(i, v)]
  | (j, w) :: m =>
    if i < j then (i, v) :: (j, w) :: m
    else if i = j then (i, v) :: m
    else (j, w) :: Memory.insert i v m

/-- Unlist an index. -/
def Memory.erase (i : Nat) : Memory → Memory
  | [] => []
  | (j, w) :: m => if i = j then m else (j, w) :: Memory.erase i m

/-- Write a byte, keeping the canonical form. -/
def Memory.write (m : Memory) (i : Nat) (v : Byte) : Memory :=
  if Memory.unlisted i = some v then Memory.erase i m else Memory.insert i v m

/-- The buffer whose header is the tag and whose payload byte `i`, 1 to 1024, is `f i`. -/
def Memory.ofPayload (f : Nat → Byte) : Memory := (List.range' 1 1024).map fun i => (i, f i)

/-- `fb[i]` for 0 ≤ i ≤ 1024: the byte last written there, or its reset value (R54). A payload byte that nothing has
written is the free value of R40. No command reads outside that range: the commands that could are stopped
before they do (`fbOob`, R56). -/
def fbByte (s : State) (i : Nat) : Byte := (s.fb.read? i).getD (Config.fbReset i)

/-- `fb[i] <- v` (R55). No command writes outside 1 to 1024 through it. -/
def fbWrite (i : Nat) (v : Byte) (s : State) : State := { s with fb := s.fb.write i v }

/-- Write bytes at consecutive indices. -/
def fbWriteList (i : Nat) : List Byte → State → State
  | [], s => s
  | v :: vs, s => fbWriteList (i + 1) vs (fbWrite i v s)

/-- The index of the byte at column `x` of page `page` (R53). -/
def fbIndex (x page : Nat) : Nat := x + page * fbW + 1

/-- The pixel at column `x` and pixel row `y` (R29). -/
def pixel (s : State) (x y : Nat) : Bool := (fbByte s (fbIndex x (y / 8))).getLsbD (y % 8)

/-- A byte with bit `n` given the value `v` (R57). -/
def putBit (b : Byte) (n : Nat) (v : Bool) : Byte :=
  if v then b ||| (1#8 <<< n) else b &&& ~~~(1#8 <<< n)

/-- `SetPixel` where the pixel lies inside the picture, nothing where it does not: a pixel clipped to
the picture (R57, R180). DEDUCED, safe: log entry 13. -/
def plot (x y : Nat) (v : Bool) (s : State) : State :=
  if x < fbW ∧ y < fbH then
    fbWrite (fbIndex x (y / 8)) (putBit (fbByte s (fbIndex x (y / 8))) (y % 8) v) s
  else s

/-- `SetPixel(x, y, v)`: outside the picture it is unpredictable (R56, R57). -/
def setPixel (x y : Nat) (v : Bool) (s : State) : Outcome :=
  if x > 127 ∨ y > 63 then .fault .fbOob else .next (plot x y v s)

/-- The 1025 bytes of the framebuffer, header first (R59). -/
def image (s : State) : List Byte := (List.range fbBytes).map (fbByte s)

/-- `FlushAll()` (R59). -/
def flushAll (s : State) : State := emit (.dispFlush (image s)) s

/-- `StreamAt(col, page, n)` (R60). -/
def streamAt (col page n : Nat) (s : State) : State :=
  emit (.dispStream col page ((List.range' (fbIndex col page) n).map (fbByte s))) s

/-! ### Sequencing -/

/-- Go on from a next state; a stop stays a stop. -/
def andThen (o : Outcome) (f : State → Outcome) : Outcome :=
  match o with
  | .next s => f s
  | .fault r => .fault r
  | .refused r => .refused r

end Sys2Proof.Machine
end

