-- ==== Sys2Proof/Machine/Router.lean ====
section
/-! DEFINITION. The PWM channel router's commands (`40_pwm_router.md`): DRVM, MEC, NRM, STPM, STPA, SRV, STEP. The
operations take the routing ROMs as an argument (R10); the meanings give them this machine's. -/

namespace Sys2Proof.Machine
open Sys2Proof.Config

/-- `Act(m, action, t)`: two channel writes, the positive channel first (R118). -/
def act (m : Motor) (action : Action) (t : Nat) (s : State) : State :=
  setCh (pn m) 0 (negTicks action t) (setCh (pp m) 0 (posTicks action t) s)

/-- `Act` on motors 1 to 4 in ascending order, each with its own action (R120, R122, R124). -/
def actAll (action : Motor → Action) (t : Nat) (s : State) : State :=
  allMotors.foldl (fun s m => act m (action m) t s) s

/-- DRVM on a valid motor, after the lazy initialisation (R115). -/
def driveMotor (m : Motor) (q : Bool) (speed : Nat) (s : State) : State :=
  let t := scale (speed * dv m q)
  if t ≥ 0 then setCh (pn m) 0 0 (setCh (pp m) 0 t.toNat s)
  else setCh (pn m) 0 (-t).toNat (setCh (pp m) 0 0 s)

/-- DRVM `motor, dir, speed` (R115). -/
def execDrvm (dir : Bool) (motor speed : Nat) (s : State) : Outcome :=
  match motorOf motor with
  | none => .next (pwmLazyInit s)
  | some m => .next (driveMotor m dir speed (pwmLazyInit s))

/-- MEC with a given ROM (R120). -/
def driveMecanum (R : Roms) (code speed : Nat) (s : State) : State :=
  match mecDirOf code with
  | none => pwmLazyInit s
  | some d => actAll (mecRom R d) (scale speed).toNat (pwmLazyInit s)

/-- MEC `code, speed` (R120). -/
def execMec (code speed : Nat) (s : State) : Outcome := .next (driveMecanum Config.roms code speed s)

/-- NRM with a given ROM (R122). -/
def driveNormal (R : Roms) (code speed : Nat) (s : State) : State :=
  match nrmDirOf code with
  | none => pwmLazyInit s
  | some d => actAll (fun m => driveAction (R.nrm d m)) (scale speed).toNat (pwmLazyInit s)

/-- NRM `code, speed` (R122). -/
def execNrm (code speed : Nat) (s : State) : Outcome := .next (driveNormal Config.roms code speed s)

/-- STPM `motor` (R123). -/
def execStpm (motor : Nat) (s : State) : Outcome :=
  match motorOf motor with
  | none => .next (pwmLazyInit s)
  | some m => .next (act m .Z 0 (pwmLazyInit s))

/-- STPA (R124). -/
def execStpa (s : State) : Outcome := .next (actAll (fun _ => .Z) 0 (pwmLazyInit s))

/-- SRV `index, angle`: only the channel range check of `SetCh` applies to the index (R126). -/
def execSrv (index angle : Nat) (s : State) : Outcome :=
  .next (setCh (index + servoChBase) 0 (pulseTicks angle) (pwmLazyInit s))

/-- One write of a stepper waveform. The ROM's channels are 0 to 15 by its shape, so `SetCh` drops none (R127, R128). -/
def writeEntry (e : StepEntry) (s : State) : State := writeCh e.ch e.on e.off s

/-- STEP with a given ROM (R127). -/
def driveStepper (R : Roms) (dir : Bool) (pair : Nat) (model : Bool) (s : State) : State :=
  match stepPairOf pair with
  | none => pwmLazyInit s
  | some p => ([0, 1, 2, 3] : List (Fin 4)).foldl
      (fun s k => writeEntry (R.step (stepModelOf model) p dir k) s) (pwmLazyInit s)

/-- STEP `pair, model, dir` (R127). -/
def execStep (dir : Bool) (pair : Nat) (model : Bool) (s : State) : Outcome :=
  .next (driveStepper Config.roms dir pair model s)

end Sys2Proof.Machine
end

