-- ==== Sys2Proof/Machine/Shapes.lean ====
section
/-! DEFINITION. The renderer's shape and control commands (`42_renderer_shapes_control.md`): HLINE, VLINE, RECT,
CLEAR, INVERT, DISPLAY, FLUSH, CFG. -/

namespace Sys2Proof.Machine
open Sys2Proof.Config

/-- `HLineBody(x, y, len, v)`: the pixels of row `y` from column `x` to `x + len - 1` that lie inside the
picture (R180). -/
def hLineBody (x y len : Nat) (v : Bool) (s : State) : State :=
  (List.range' x len).foldl (fun s i => plot i y v s) s

/-- HLINE `x, y, len, colour` (R181). -/
def execHline (colour : Bool) (x y len : Nat) (s : State) : Outcome :=
  .next (flushAll (hLineBody x y len colour (dispLazyInit s)))

/-- `VLineBody(x, y, len, v)`: the pixels of column `x` from row `y` to `y + len - 1` that lie inside the
picture (R182). -/
def vLineBody (x y len : Nat) (v : Bool) (s : State) : State :=
  (List.range' y len).foldl (fun s j => plot x j v s) s

/-- VLINE `x, y, len, colour` (R183). -/
def execVline (colour : Bool) (x y len : Nat) (s : State) : Outcome :=
  .next (flushAll (vLineBody x y len colour (dispLazyInit s)))

/-- The four edges of the rectangle with top left corner `(xa, ya)` and bottom right corner `(xb, yb)` (R184). -/
def rectEdges (xa ya xb yb : Nat) (v : Bool) (s : State) : State :=
  vLineBody xb ya (yb - ya + 1) v
    (vLineBody xa ya (yb - ya + 1) v
      (hLineBody xa yb (xb - xa + 1) v
        (hLineBody xa ya (xb - xa + 1) v s)))

/-- RECT `x1, y1, x2, y2, colour`: corners normalised, two horizontal and two vertical edges, one flush (R184). -/
def execRect (colour : Bool) (x1 y1 x2 y2 : Nat) (s : State) : Outcome :=
  .next (flushAll (rectEdges (min x1 x2) (min y1 y2) (max x1 x2) (max y1 y2) colour (dispLazyInit s)))

/-- The payload zero and the header the tag (R185). One assignment for the spec's loop, DEDUCED, safe: log entry 12. -/
def clearFb (s : State) : State := { s with fb := Memory.ofPayload fun _ => 0x00 }

/-- CLEAR (R185). -/
def execClear (s : State) : Outcome :=
  .next (flushAll (clearFb { dispLazyInit s with cx := 0, cy := 0 }))

/-- FLUSH (R186). -/
def execFlush (s : State) : Outcome := .next (flushAll (dispLazyInit s))

/-- CFG `dbl`: it does not initialise the display (R187). -/
def execCfg (dbl : Bool) (s : State) : Outcome := .next (setDbl dbl s)

/-- INVERT `on` (R188). -/
def execInvert (on : Bool) (s : State) : Outcome :=
  .next { emit (.dispCmdInvert on) (dispLazyInit s) with
    dispPolarity := if on then .inverted else .normal }

/-- DISPLAY `on` (R189). -/
def execDisplay (on : Bool) (s : State) : Outcome :=
  .next { emit (.dispCmdPower on) (dispLazyInit s) with
    dispPower := if on then .on else .off }

end Sys2Proof.Machine
end

