-- ==== Sys2Proof/Machine/Text.lean ====
section
/-! DEFINITION. The renderer's pixel and text commands (`41_renderer_pixel_text.md`): SETPX, DRAWCH, PRINTCH,
NEWLINE. The operations take the font as an argument (R10); the meanings give them this machine's. -/

namespace Sys2Proof.Machine
open Sys2Proof.Config

/-- SETPX `x, y, colour` (R152). -/
def execSetpx (colour : Bool) (x y : Nat) (s : State) : Outcome :=
  andThen (setPixel x y colour (dispLazyInit s)) fun s => .next (streamAt x (y / 8) 1 s)

/-- The six bytes of a single-size glyph: five font bytes, inverted when the colour is 0, and a
spacing column, blank or full (R154). -/
def glyphCell (R : Roms) (ch : Nat) (q : Bool) : List Byte :=
  glyphColumns.map (fun i => glyphByte R ch i ^^^ inversion q) ++ [inversion q]

/-- `DrawCharSingle(ch, col, row, q)` (R154). -/
def drawCharSingle (R : Roms) (ch col row : Nat) (q : Bool) (s : State) : Outcome :=
  if row > 7 ∨ col > 122 then .fault .fbOob
  else .next (streamAt col row 6 (fbWriteList (fbIndex col row) (glyphCell R ch q) s))

/-- A 2×2 block of pixels of one value, at column `x` and pixel row `y` (R155). -/
def plotBlock (x y : Nat) (v : Bool) (s : State) : State :=
  plot (x + 1) (y + 1) v (plot x (y + 1) v (plot (x + 1) y v (plot x y v s)))

/-- `DrawCharDouble(ch, col, row, q)`: each font bit, after inversion, as a 2×2 block; no event (R155). -/
def drawCharDouble (R : Roms) (ch col row : Nat) (q : Bool) (s : State) : Outcome :=
  if row > 6 ∨ col > 118 then .fault .fbOob
  else .next (glyphColumns.foldl (fun s (i : Fin 5) =>
    (List.range 8).foldl (fun s j =>
      plotBlock (col + 2 * i) (row * 8 + 2 * j) ((glyphByte R ch i).getLsbD j ^^ !q) s) s) s)

/-- `DrawChar(ch, col, row, q)`: single-size or double-size by `cfg.DBL` (R153). The zoom mode has no
meaning (R200), DEDUCED, safe: log entry 3. -/
def drawChar (R : Roms) (ch col row : Nat) (q : Bool) (s : State) : Outcome :=
  if s.cfgZoom then .refused .zoomConfigured
  else if s.cfgDbl then drawCharDouble R ch col row q s
  else drawCharSingle R ch col row q s

/-- DRAWCH `ch, col, row, colour` (R153). -/
def execDrawch (colour : Bool) (ch col row : Nat) (s : State) : Outcome :=
  drawChar Config.roms ch col row colour (dispLazyInit s)

/-- `Scroll()`: page `p` gets old page `p + 1`, page 7 becomes blank, the header is the tag (R158). One assignment for
the spec's loop, DEDUCED, safe: log entry 12. -/
def scroll (s : State) : State :=
  { s with fb := Memory.ofPayload fun i => if i ≤ 896 then fbByte s (i + 128) else 0x00 }

/-- `NewLine()`: column 0 of the next page; past page 7 the row is pinned, the picture scrolls and
the whole buffer is flushed (R157). -/
def newLine (s : State) : State :=
  if s.cy.toNat + 1 > rowLast then
    flushAll (scroll { s with cx := 0, cy := BitVec.ofNat 4 rowLast })
  else { s with cx := 0, cy := BitVec.ofNat 4 (s.cy.toNat + 1) }

/-- The cursor after a glyph: advanced, and on a new row when the advanced column exceeds 120 (R156). -/
def advanceCursor (s : State) : State :=
  if s.cx.toNat + advance s.cfgDbl > wrapCol then newLine s
  else { s with cx := BitVec.ofNat 8 (s.cx.toNat + advance s.cfgDbl) }

/-- One printed character with a given font (R156). -/
def printChar (R : Roms) (colour : Bool) (ch : Nat) (s : State) : Outcome :=
  andThen (drawChar R ch s.cx.toNat s.cy.toNat colour s) fun s => .next (advanceCursor s)

/-- PRINTCH `ch, colour` (R156). -/
def execPrintch (colour : Bool) (ch : Nat) (s : State) : Outcome :=
  printChar Config.roms colour ch (dispLazyInit s)

/-- NEWLINE (R159). -/
def execNewline (s : State) : Outcome := .next (newLine (dispLazyInit s))

end Sys2Proof.Machine
end

