-- ==== Sys2Proof/Machine/Dispatch.lean ====
section
/-! DEFINITION. Dispatch: each command to its meaning. -/

namespace Sys2Proof.Machine

/-- The effect of one command. -/
def exec (i : Instr) (s : State) : Host.Outcome State Fault Refusal :=
  match i with
  -- the PWM channel router
  | .drvm dir motor speed => Sys2Proof.Machine.execDrvm dir motor speed s
  | .mec code speed => Sys2Proof.Machine.execMec code speed s
  | .nrm code speed => Sys2Proof.Machine.execNrm code speed s
  | .stpm motor => Sys2Proof.Machine.execStpm motor s
  | .stpa => Sys2Proof.Machine.execStpa s
  | .srv index angle => Sys2Proof.Machine.execSrv index angle s
  | .step dir pair model => Sys2Proof.Machine.execStep dir pair model s
  -- the framebuffer renderer: pixel and text
  | .setpx colour x y => Sys2Proof.Machine.execSetpx colour x y s
  | .drawch colour ch col row => Sys2Proof.Machine.execDrawch colour ch col row s
  | .printch colour ch => Sys2Proof.Machine.execPrintch colour ch s
  | .newline => Sys2Proof.Machine.execNewline s
  -- the framebuffer renderer: shapes and control
  | .hline colour x y len => Sys2Proof.Machine.execHline colour x y len s
  | .vline colour x y len => Sys2Proof.Machine.execVline colour x y len s
  | .rect colour x1 y1 x2 y2 => Sys2Proof.Machine.execRect colour x1 y1 x2 y2 s
  | .clear => Sys2Proof.Machine.execClear s
  | .invert on => Sys2Proof.Machine.execInvert on s
  | .display on => Sys2Proof.Machine.execDisplay on s
  | .flush => Sys2Proof.Machine.execFlush s
  | .cfg dbl => Sys2Proof.Machine.execCfg dbl s

end Sys2Proof.Machine
end

