-- ==== Sys2Proof/Machine/Step.lean ====
section
/-! DEFINITION. One step: the complete execution of the next command word (R7), an illegal word dropped
(R87), a unit with no word waiting (R231). -/

namespace Sys2Proof.Machine

/-- The host hands over the next command word and the unit executes it (R7, R80). An illegal word changes nothing
(R87). With no word handed over the unit waits (R231). A configuration with `cfg.ZOOM` = 1 is refused
(R200, R225 (c)). DESIGN CHOICE and DEDUCED, safe: log entries 2, 3, 5. -/
def step (s : State) : Host.Outcome State Fault Refusal :=
  if s.cfgZoom then .refused .zoomConfigured
  else
    match s.commands with
    | [] => .next s
    | w :: ws =>
      match decode w with
      | .error _ => .next { s with commands := ws }
      | .ok i => exec i { s with commands := ws }

/-- The state with the command word `w` next to be handed over, every bit above `nbits` 0. -/
def State.withFetchWord (s : State) (nbits w : Nat) : State :=
  { s with commands := BitVec.ofNat 32 (w % 2 ^ nbits) :: s.commands }

end Sys2Proof.Machine
end

