-- ==== Sys2Proof/Machine/Assembler.lean ====
section
/-! DEFINITION. The host's side of the command port: issuing a list of commands, the pseudo-commands DRAWSTR,
DRAWNUM, PRINTSTR, PRINTNUM and their expansions (R92 to R95, R160), and the written form of a command (R91). DESIGN CHOICE,
safe: log entry 20. -/

namespace Sys2Proof.Machine

/-- The commands executed one after the other, stopping at the first that stops (R66, R233). -/
def issue : List Instr → State → Outcome
  | [], s => .next s
  | i :: is, s => andThen (exec i s) (issue is)

/-- The expansion of DRAWSTR from column `col` on, each character `advance dbl` columns after the one before it; there
is none when a column exceeds 255 (R92). -/
def drawStr (dbl : Bool) (colour : Bool) (row : Nat) : (text : List Nat) → (col : Nat) → Option (List Instr)
  | [], _ => some []
  | ch :: text, col =>
    if col > 255 then none
    else (drawStr dbl colour row text (col + advance dbl)).map (.drawch colour ch col row :: ·)

/-- The expansion of PRINTSTR: a PRINTCH a character, then one NEWLINE if asked for (R94). -/
def printStr (text : List Nat) (newline : Bool) (colour : Bool) : List Instr :=
  text.map (fun ch => .printch colour ch) ++ if newline then [.newline] else []

/-- The decimal text of an integer as character codes: an optional `-` and the digits without leading zeros (R93). -/
def decimalText (value : Int) : List Nat :=
  (if value < 0 then ['-'.toNat] else []) ++ (Nat.toDigits 10 value.natAbs).map Char.toNat

/-- The expansion of DRAWNUM (R93). -/
def drawNum (dbl : Bool) (colour : Bool) (value : Int) (col row : Nat) : Option (List Instr) :=
  drawStr dbl colour row (decimalText value) col

/-- The expansion of PRINTNUM (R95). -/
def printNum (value : Int) (newline : Bool) (colour : Bool) : List Instr :=
  printStr (decimalText value) newline colour

/-- A mnemonic and its operands, separated as R91 writes them. -/
def asmLine (mnemonic : String) (operands : List String) : String :=
  if operands.isEmpty then mnemonic else mnemonic ++ " " ++ ", ".intercalate operands

/-- A one-bit operand in decimal. -/
def asmBit (b : Bool) : String := if b then "1" else "0"

/-- The written form of a command, operands in decimal (R91). -/
def asm : Instr → String
  | .drvm dir motor speed => asmLine "DRVM" [motor.repr, if dir then "CCW" else "CW", speed.repr]
  | .mec code speed => asmLine "MEC" [code.repr, speed.repr]
  | .nrm code speed => asmLine "NRM" [code.repr, speed.repr]
  | .stpm motor => asmLine "STPM" [motor.repr]
  | .stpa => asmLine "STPA" []
  | .srv index angle => asmLine "SRV" [index.repr, angle.repr]
  | .step dir pair model => asmLine "STEP" [pair.repr, if model then "M42" else "M28", asmBit dir]
  | .setpx colour x y => asmLine "SETPX" [x.repr, y.repr, asmBit colour]
  | .drawch colour ch col row => asmLine "DRAWCH" [ch.repr, col.repr, row.repr, asmBit colour]
  | .printch colour ch => asmLine "PRINTCH" [ch.repr, asmBit colour]
  | .newline => asmLine "NEWLINE" []
  | .hline colour x y len => asmLine "HLINE" [x.repr, y.repr, len.repr, asmBit colour]
  | .vline colour x y len => asmLine "VLINE" [x.repr, y.repr, len.repr, asmBit colour]
  | .rect colour x1 y1 x2 y2 => asmLine "RECT" [x1.repr, y1.repr, x2.repr, y2.repr, asmBit colour]
  | .clear => asmLine "CLEAR" []
  | .invert on => asmLine "INVERT" [asmBit on]
  | .display on => asmLine "DISPLAY" [asmBit on]
  | .flush => asmLine "FLUSH" []
  | .cfg dbl => asmLine "CFG" [asmBit dbl]

end Sys2Proof.Machine
end

