-- ==== Sys2Proof/Machine/Conditions.lean ====
section
/-! DEFINITION. The exceptional conditions of R211, computed as a by-product from the command word and the state, as R224
allows. The hardware reports none of them and no meaning reads them. DEDUCED, safe: log entry 19. -/

namespace Sys2Proof.Machine

/-- The names of R211. `X_BUS_FAIL` is not among them: the model's bus does not fail (R212). -/
inductive Condition where
  /-- `X_ILLEGAL_WORD` -/
  | illegalWord
  /-- `X_BAD_MOTOR` -/
  | badMotor
  /-- `X_BAD_DIRCODE` -/
  | badDirCode
  /-- `X_BAD_PAIR` -/
  | badPair
  /-- `X_BAD_CHANNEL` -/
  | badChannel
  /-- `X_CLAMPED` -/
  | clamped
  /-- `X_CHAR_CLAMPED` -/
  | charClamped
  /-- `X_CLIPPED` -/
  | clipped
  /-- `U_FB_OOB` -/
  | fbOob
  deriving DecidableEq, Repr

/-- The condition holds or it does not. -/
def condition (p : Bool) (k : Condition) : List Condition := if p then [k] else []

/-- A glyph at column `col` of page `row` would leave the picture (R154, R155, U1). -/
def glyphLeaves (dbl : Bool) (col row : Nat) : Bool :=
  if dbl then 118 < col || 6 < row else 122 < col || 7 < row

/-- A character code outside 32 to 127 (R151). -/
def charIsClamped (ch : Nat) : Bool := ch < 32 || 127 < ch

/-- The conditions of a legal command in a state (R211). -/
def conditionsOf (i : Instr) (s : State) : List Condition :=
  match i with
  | .drvm _ motor _ => condition (motorOf motor).isNone .badMotor
  | .mec code _ => condition (mecDirOf code).isNone .badDirCode
  | .nrm code _ => condition (nrmDirOf code).isNone .badDirCode
  | .stpm motor => condition (motorOf motor).isNone .badMotor
  | .stpa => []
  | .srv index angle => condition (180 < angle) .clamped ++ condition (9 ≤ index) .badChannel
  | .step _ pair _ => condition (stepPairOf pair).isNone .badPair
  | .setpx _ x y => condition (127 < x || 63 < y) .fbOob
  | .drawch _ ch col row =>
    condition (charIsClamped ch) .charClamped ++ condition (glyphLeaves s.cfgDbl col row) .fbOob
  | .printch _ ch =>
    condition (charIsClamped ch) .charClamped ++
      condition (glyphLeaves s.cfgDbl s.cx.toNat s.cy.toNat) .fbOob
  | .newline => []
  | .hline _ x y len => condition (0 < len && (63 < y || 128 < x + len)) .clipped
  | .vline _ x y len => condition (0 < len && (127 < x || 64 < y + len)) .clipped
  | .rect _ _ _ _ _ => []
  | .clear => []
  | .invert _ => []
  | .display _ => []
  | .flush => []
  | .cfg _ => []

/-- The conditions of a command word in a state (R211). -/
def conditions (w : CmdWord) (s : State) : List Condition :=
  match decode w with
  | .error _ => [.illegalWord]
  | .ok i => conditionsOf i s

end Sys2Proof.Machine
end

