-- ==== Sys2Proof/Machine/Display.lean ====
section
/-! DEFINITION. The picture a display is taken to show, as a function of the trace (R72). It is no part of the unit's
state: a claim may use it to speak of what the events delivered. DEDUCED, unsafe for such a
claim: log entry 18. -/

namespace Sys2Proof.Machine

/-- Bytes written over an image from index `i` on. -/
def splice (img : List Byte) (i : Nat) (bytes : List Byte) : List Byte :=
  img.take i ++ bytes ++ img.drop (i + bytes.length)

/-- The image the display is known to hold after one more event, if it is known (R72): a flush gives it whole, a
stream inside one page updates it, a stream past the end of a page and the device's initialisation leave it unknown,
and no other event carries picture bytes (R241). Whether the display keeps its picture while OFF is not in the source
(R189): that the image stays known across `dispCmdPower false`, and that flushes and streams sent while the display is
OFF count as at any other time, is the model's. DESIGN CHOICE, unsafe: log entry 23. -/
def showEvent (shown : Option (List Byte)) : Event → Option (List Byte)
  | .dispFlush img => some img
  | .dispStream col page bytes =>
    if col + bytes.length ≤ 128 then shown.map fun img => splice img (fbIndex col page) bytes else none
  | .dispInit => none
  | .pwmInit => shown
  | .pwmSet _ _ _ => shown
  | .dispCmdInvert _ => shown
  | .dispCmdPower _ => shown

/-- The image the display is known to hold after a trace: none before the first flush (R39, R72). -/
def picture (trace : List Event) : Option (List Byte) := trace.foldl showEvent none

end Sys2Proof.Machine
end

