-- ==== Sys2Proof/Safety.lean ====
section
/-! DEFINITION. The terms claims are stated in: the two units' commands (R18), the events of a lazy initialisation
(R110, R150), what a command may change (R50), the routing of four motors (R51, R118), the invariants of R41, and safe
execution. -/

namespace Sys2Proof.Machine
open Sys2Proof.Config

/-- A router command (R18). -/
def isRouter : Instr → Bool
  | .drvm _ _ _ | .mec _ _ | .nrm _ _ | .stpm _ | .stpa | .srv _ _ | .step _ _ _ => true
  | .setpx _ _ _ | .drawch _ _ _ _ | .printch _ _ | .newline | .hline _ _ _ _ | .vline _ _ _ _
  | .rect _ _ _ _ _ | .clear | .invert _ | .display _ | .flush | .cfg _ => false

/-- A renderer command that initialises the display: every one except CFG (R18, R150). -/
def usesDisplay : Instr → Bool
  | .setpx _ _ _ | .drawch _ _ _ _ | .printch _ _ | .newline | .hline _ _ _ _ | .vline _ _ _ _
  | .rect _ _ _ _ _ | .clear | .invert _ | .display _ | .flush => true
  | .drvm _ _ _ | .mec _ _ | .nrm _ _ | .stpm _ | .stpa | .srv _ _ | .step _ _ _ | .cfg _ => false

/-- The event a router command begins with: the initialisation of the PWM bank, the first time (R110). -/
def pwmStart (s : State) : List Event := if s.pwmInit then [] else [.pwmInit]

/-- The event a renderer command begins with: the initialisation of the display, the first time (R150). -/
def dispStart (s : State) : List Event := if s.dispInit then [] else [.dispInit]

/-- Every byte of the framebuffer outside the indices `p` reads in `t` as it did in `s`. -/
def BytesSameExcept (p : Nat → Prop) (s t : State) : Prop := ∀ i, ¬ p i → fbByte t i = fbByte s i

/-- The duty a speed gives: sixteen times the speed, at most 4095 (R111). -/
def duty (speed : Nat) : Tick := BitVec.ofNat 12 (min (16 * speed) 4095)

/-- The eight writes `(channel, off-tick)` that give four motors their actions with duty `t`: motors 1 to 4, the
positive channel of a motor before its negative one (R51, R118, R120). -/
def routed (action : Motor → Action) (t : Tick) : List (Fin 16 × Tick) :=
  [(7, if action .m1 = .P then t else 0), (6, if action .m1 = .N then t else 0),
   (5, if action .m2 = .P then t else 0), (4, if action .m2 = .N then t else 0),
   (3, if action .m3 = .P then t else 0), (2, if action .m3 = .N then t else 0),
   (1, if action .m4 = .P then t else 0), (0, if action .m4 = .N then t else 0)]

/-- `t` is `s` after the lazy initialisation and the eight writes of `routed`, the servo channels 8 to 15 and everything
but the bank, `pwm_init` and the trace as before (R120, R122, R124). -/
def RoutesTo (action : Motor → Action) (d : Tick) (s t : State) : Prop :=
  t = { s with bank := t.bank, pwmInit := true
               trace := s.trace ++ pwmStart s ++ (routed action d).map fun w => .pwmSet w.1 0 w.2 } ∧
  (∀ w ∈ routed action d, channel t w.1 = ⟨0, w.2⟩) ∧
  ∀ ch : Fin 16, 8 ≤ ch.val → channel t ch = channel s ch

/-- The invariant of R41 on the state, and the framebuffer in its canonical form (log entry 1): the header tagged (R30), the cursor in
range and on a multiple of 6 (R31, R161), the zoom flag 0 (R33). -/
def StateInv (s : State) : Prop :=
  s.fb.wf ∧ fbByte s 0 = 0x40 ∧ s.cx.toNat ≤ 120 ∧ s.cx.toNat % 6 = 0 ∧ s.cy.toNat ≤ 7 ∧ s.cfgZoom = false

/-- The invariant on the trace: each initialisation event is there exactly once if its flag is set and not at all if it is
not (R231), and every flush carries 1025 bytes, the header tag first (R30, R59). -/
def TraceInv (s : State) : Prop :=
  s.trace.count .pwmInit = (if s.pwmInit then 1 else 0) ∧
  s.trace.count .dispInit = (if s.dispInit then 1 else 0) ∧
  ∀ img, Event.dispFlush img ∈ s.trace → img.length = 1025 ∧ img.head? = some 0x40

/-- A step that does not stop: the machine goes on to a next state (R225, R233). -/
def StepsOn (s : State) : Prop := ∃ t, step s = .next t

/-- A safe run: no number of steps meets `U_FB_OOB` or a refused configuration (R233). -/
def Safe (s : State) : Prop := ∀ n, ∃ t, Host.Core.run
  { State := State, Fault := Fault, Refusal := Refusal, step := step, reset := State.reset } n s = .next t

end Sys2Proof.Machine
end

