-- ==== Sys2Proof/Certificates/Slice0/Obligations.lean ====
section
/-! DEFINITION. The statements for the provers. Frames are written as record equations: `t = { s with f := t.f, … }` says that
every field not named is unchanged. What a free value of `Config` is (a ROM entry, a reset byte), no statement
says: each holds whatever it is. -/

open Sys2Proof Sys2Proof.Machine Sys2Proof.Config

/-! ### The encoding -/

/-- The decoder reads back every well-formed command from its word (R81 to R86). -/
def Obligations.DecodeOfEncode : Prop :=
  ∀ i : Instr, WellFormed i = true → decode (encode i) = .ok i

/-- Every legal word is the word of the command it decodes to, which is well-formed: no bit of a legal word is dropped
(R83, R85, R86). -/
def Obligations.EncodeOfDecode : Prop :=
  ∀ (w : CmdWord) (i : Instr), decode w = .ok i → encode i = w ∧ WellFormed i = true

/-- A word is a command exactly when it belongs to a row by `cw & mask = match`, it belongs to at most one row, and its
command is that row's with the fields of the word (R83, R86). -/
def Obligations.OneRowDecides : Prop :=
  (∀ w i, decode w = .ok i ↔ ∃ r, w &&& rowMask r = rowMatch r ∧ i = rowInstr w r) ∧
  ∀ w r r', w &&& rowMask r = rowMatch r → w &&& rowMask r' = rowMatch r' → r = r'

/-- The illegal words are the ones R87 lists: an unassigned `op`; in format S a reserved bit; a must-be-zero field not zero;
`q` = 1 on a command without one; CFG with any of `c[7:1]` set. -/
def Obligations.IllegalWordsListed : Prop :=
  ∀ w : CmdWord, (∃ e, decode w = .error e) ↔
    let op := (fieldOp w).toNat
    let a := fieldA w
    let b := fieldB w
    let c := fieldC w
    (op = 0 ∨ (8 ≤ op ∧ op ≤ 15) ∨ 28 ≤ op) ∨
    (op ≠ 22 ∧ fieldRsv w ≠ 0) ∨
    (op ∈ [2, 3, 4, 5, 6, 19, 23, 26, 27] ∧ fieldQ w = true) ∨
    (op ∈ [5, 19, 23, 24, 25, 26, 27] ∧ a ≠ 0) ∨
    (op ∈ [1, 2, 3, 4, 5, 6, 18, 19, 23, 24, 25, 26, 27] ∧ b ≠ 0) ∨
    (op = 7 ∧ 2 ≤ b) ∨
    (op ∈ [4, 5, 7, 16, 18, 19, 23, 24, 25, 26] ∧ c ≠ 0) ∨
    (op = 27 ∧ 2 ≤ c)

/-- The word of a format is the bitwise or of its shifted fields (the formulas of R91). -/
def Obligations.WordIsShiftedFields : Prop :=
  (∀ (op : BitVec 5) (q : Bool) (a b c : Nat), a < 256 → b < 256 → c < 256 →
    formatS op q a b c = BitVec.ofNat 32 op.toNat <<< 27 ||| BitVec.ofNat 32 q.toNat <<< 26 |||
      BitVec.ofNat 32 a <<< 16 ||| BitVec.ofNat 32 b <<< 8 ||| BitVec.ofNat 32 c) ∧
  ∀ (op : BitVec 5) (q : Bool) (x1 y1 x2 y2 : Nat), x1 < 128 → y1 < 64 → x2 < 128 → y2 < 64 →
    formatR op q x1 y1 x2 y2 = BitVec.ofNat 32 op.toNat <<< 27 ||| BitVec.ofNat 32 q.toNat <<< 26 |||
      BitVec.ofNat 32 x1 <<< 19 ||| BitVec.ofNat 32 y1 <<< 13 ||| BitVec.ofNat 32 x2 <<< 6 ||| BitVec.ofNat 32 y2

/-- Words written out in the spec's test vectors decode to the commands they stand for (a sanity statement). The name of the
reason, `zoomBit`, is the model's own: log entry 5. -/
def Obligations.VectorWordsDecode : Prop :=
  decode 0x08010080 = .ok (.drvm false 1 128) ∧ decode 0x10020064 = .ok (.mec 2 100) ∧
  decode 0x38020100 = .ok (.step false 2 true) ∧ decode 0x8C410C03 = .ok (.drawch true 65 12 3) ∧
  decode 0xB450A50C = .ok (.rect true 10 5 20 12) ∧ decode 0xD8000002 = .error .zoomBit

/-! ### One step -/

/-- A step runs the next command word: with `cfg.ZOOM` = 0, when that word decodes to `i`, the step is `exec i` on the
state with the word taken from the host's sequence (R7, R80). -/
def Obligations.StepRunsDecodedCommand : Prop :=
  ∀ (s : State) (w : CmdWord) (ws : List CmdWord) (i : Instr),
    s.cfgZoom = false → s.commands = w :: ws → decode w = .ok i →
    step s = exec i { s with commands := ws }

/-- An illegal word is dropped: the step goes on to the same state, only the word used up (R87). That it is used up is log
entry 5, from R27; that the host's sequence stands in the state is the model's choice, log entry 2. -/
def Obligations.IllegalWordChangesNothing : Prop :=
  ∀ (s : State) (w : CmdWord) (ws : List CmdWord) (e : Illegal),
    s.cfgZoom = false → s.commands = w :: ws → decode w = .error e →
    step s = .next { s with commands := ws }

/-- A configuration with `cfg.ZOOM` = 1 is refused: by every step, and by the two commands that read the mode
flags (R200, R225 (c)). -/
def Obligations.ZoomIsRefused : Prop :=
  ∀ s : State, s.cfgZoom = true →
    step s = .refused .zoomConfigured ∧
    (∀ colour ch col row, exec (.drawch colour ch col row) s = .refused .zoomConfigured) ∧
    ∀ colour ch, exec (.printch colour ch) s = .refused .zoomConfigured

/-! ### Reset and invariants -/

/-- What reset leaves: both flags 0, the header tagged, the cursor at (0, 0), single-size, no zoom, no event
(R40). The unspecified rest is free values. -/
def Obligations.ResetLeaves : Prop :=
  State.reset.pwmInit = false ∧ State.reset.dispInit = false ∧ fbByte State.reset 0 = 0x40 ∧
  State.reset.cx = 0 ∧ State.reset.cy = 0 ∧ State.reset.cfgDbl = false ∧ State.reset.cfgZoom = false ∧
  State.reset.trace = []

/-- The two invariants hold at reset: `StateInv`, which is R41's with the canonical form of log entry 1, and `TraceInv`, from
R30, R59 and R231. The reset values are the spec's decision D14. -/
def Obligations.ResetMeetsInvariants : Prop := StateInv State.reset ∧ TraceInv State.reset

/-- Every step that goes on keeps the state invariant: the framebuffer in its canonical form and inside its 1025 bytes, the
header 0x40, the cursor in range and on a multiple of 6, the zoom flag 0 (R30, R31, R33, R41, R161). -/
def Obligations.StepKeepsInvariant : Prop :=
  ∀ s t : State, StateInv s → step s = .next t → StateInv t

/-- Every step that goes on keeps the trace invariant: each initialisation at most once, and every flush 1025 bytes with the
header tag first (R30, R59, R231). -/
def Obligations.StepKeepsTraceInvariant : Prop :=
  ∀ s t : State, StateInv s → TraceInv s → step s = .next t → TraceInv t

/-- The init flags never fall and the trace only grows at its end, over every step (R23, R24, R39). -/
def Obligations.FlagsAndTraceOnlyGrow : Prop :=
  ∀ s t : State, step s = .next t →
    (s.pwmInit = true → t.pwmInit = true) ∧ (s.dispInit = true → t.dispInit = true) ∧ s.trace <+: t.trace

/-- From a state that meets the invariant a step stops only by `U_FB_OOB`, and exactly when the next word is a legal
command that meets that condition of R211; otherwise it goes on (R210, R211, R225). -/
def Obligations.StepStopsExactlyOutOfPicture : Prop :=
  ∀ s : State, StateInv s →
    (step s = .fault .fbOob ↔ ∃ w ws, s.commands = w :: ws ∧ .fbOob ∈ conditions w s) ∧
    (step s = .fault .fbOob ∨ ∃ t, step s = .next t)

/-! ### Whole-machine rules -/

/-- The two units are separate: a router command changes only the bank, `pwm_init` and the trace, and a renderer command
never changes the bank or `pwm_init` (R50). -/
def Obligations.UnitsAreSeparate : Prop :=
  ∀ (i : Instr) (s t : State), exec i s = .next t →
    (isRouter i = true → t = { s with bank := t.bank, pwmInit := t.pwmInit, trace := t.trace }) ∧
    (isRouter i = false → t.bank = s.bank ∧ t.pwmInit = s.pwmInit)

/-- The first router command emits the PWM initialisation before anything else and no later one does, and every one leaves
`pwm_init` set; the same for the renderer commands other than CFG and the display (R110, R150, R231). -/
def Obligations.InitialisationComesFirst : Prop :=
  ∀ (i : Instr) (s t : State), exec i s = .next t →
    ∃ evs, .pwmInit ∉ evs ∧ .dispInit ∉ evs ∧
      (isRouter i = true → t.pwmInit = true ∧ t.trace = s.trace ++ pwmStart s ++ evs) ∧
      (usesDisplay i = true → t.dispInit = true ∧ t.trace = s.trace ++ dispStart s ++ evs)

/-- No command reads the bank: run from another bank, a command ends the same way, with the same state apart from the
bank, and leaves each channel either equal in both runs or untouched in both (R21). -/
def Obligations.BankIsNeverRead : Prop :=
  ∀ (i : Instr) (s : State) (b : Vector TickPair 16),
    match exec i s with
    | .next t => ∃ b', exec i { s with bank := b } = .next { t with bank := b' } ∧
        ∀ ch, b'.get ch = t.bank.get ch ∨ (b'.get ch = b.get ch ∧ t.bank.get ch = s.bank.get ch)
    | .fault f => exec i { s with bank := b } = .fault f
    | .refused r => exec i { s with bank := b } = .refused r

/-- No command reads the trace: run with another trace, a command ends the same way and adds the same events (R39). -/
def Obligations.TraceIsNeverRead : Prop :=
  ∀ (i : Instr) (s : State) (tr : List Event),
    match exec i s with
    | .next t => ∃ evs, t.trace = s.trace ++ evs ∧ exec i { s with trace := tr } = .next { t with trace := tr ++ evs }
    | .fault f => exec i { s with trace := tr } = .fault f
    | .refused r => exec i { s with trace := tr } = .refused r

/-- Only the commands the rules name write the cursor, `cfg.DBL` and the display-side state (R31, R32, R34); no command
writes `cfg.ZOOM` (R33) or the host's command sequence (R27). -/
def Obligations.WhoWritesCursorAndModes : Prop :=
  ∀ (i : Instr) (s t : State), exec i s = .next t →
    ((∀ colour ch, i ≠ .printch colour ch) → i ≠ .newline → i ≠ .clear → t.cx = s.cx ∧ t.cy = s.cy) ∧
    ((∀ dbl, i ≠ .cfg dbl) → t.cfgDbl = s.cfgDbl) ∧
    ((∀ on, i ≠ .invert on) → t.dispPolarity = s.dispPolarity) ∧
    ((∀ on, i ≠ .display on) → t.dispPower = s.dispPower) ∧
    t.cfgZoom = s.cfgZoom ∧ t.commands = s.commands

/-- Every command but PRINTCH and NEWLINE, executed a second time in a row, goes on and leaves every piece of state other
than the trace as the first time left it (R63). -/
def Obligations.CommandsAreIdempotent : Prop :=
  ∀ (i : Instr) (s t : State), (∀ colour ch, i ≠ .printch colour ch) → i ≠ .newline → exec i s = .next t →
    ∃ u, exec i t = .next u ∧ u = { t with fb := u.fb, trace := u.trace } ∧ ∀ j, fbByte u j = fbByte t j

/-- Every channel write of a router command other than STEP has on-tick 0, and an off-tick of at most 4080 on the operands a
word can carry (the range R130), so full speed is not full duty (R248). -/
def Obligations.RouterWritesStayInRange : Prop :=
  ∀ (i : Instr) (s t : State), isRouter i = true → WellFormed i = true → (∀ dir pair model, i ≠ .step dir pair model) →
    exec i s = .next t →
    ∃ evs, t.trace = s.trace ++ pwmStart s ++ evs ∧ ∀ e ∈ evs, ∃ ch off, e = .pwmSet ch 0 off ∧ off.toNat ≤ 4080

/-! ### The router -/

/-- `scale` for every integer: `v * 16` clamped to [-4095, 4095], exact where `|v|` is at most 255 and clamped from 256 on,
in [0, 4080] on the speeds a command can carry, monotonic, odd (R111). -/
def Obligations.ScaleShape : Prop :=
  (∀ v : Int, scale v = max (-4095) (min (v * 16) 4095)) ∧
  (∀ v : Int, scale v = v * 16 ↔ -256 < v ∧ v < 256) ∧ scale 256 = 4095 ∧ scale (-256) = -4095 ∧
  (∀ v : Int, 0 ≤ v → v ≤ 255 → scale v = v * 16 ∧ 0 ≤ scale v ∧ scale v ≤ 4080 ∧ scale (-v) = -v * 16) ∧
  (∀ v w : Int, v ≤ w → scale v ≤ scale w) ∧ (∀ v : Int, scale (-v) = -scale v) ∧ scale 0 = 0

/-- `pulseTicks` for every integer: the angle clamped to 0 to 180, its microseconds from 600 to 2400, the truncated quotient;
strictly increasing on 0 to 180, 122 and 491 at the ends and beyond them, 307 at 90 (R125, C2). -/
def Obligations.PulseTicksShape : Prop :=
  (∀ a : Nat, a ≤ 180 → a * 1800 % 180 = 0 ∧ servoUs a = a * 10 + 600 ∧ 600 ≤ servoUs a ∧ servoUs a ≤ 2400) ∧
  (∀ a : Int, pulseTicks a = (((max 0 (min a 180)).toNat) * 10 + 600) * 4096 / 20000) ∧ pulseTicks 90 = 307 ∧
  (∀ a b : Nat, a < b → b ≤ 180 → pulseTicks a < pulseTicks b) ∧
  (∀ a : Int, a ≤ 0 → pulseTicks a = 122) ∧ ∀ a : Int, 180 ≤ a → pulseTicks a = 491

/-- The motors and their channels (R112): index 1 to 4, negative channel `(4 - m) * 2`, positive channel one above it, and every
channel 0 to 7 belongs to one motor. -/
def Obligations.MotorChannelPairs : Prop :=
  (∀ (index : Nat) (m : Motor), motorOf index = some m →
    1 ≤ index ∧ index ≤ 4 ∧ pn m = (4 - index) * 2 ∧ pp m = (4 - index) * 2 + 1) ∧
  (∀ index : Nat, 1 ≤ index → index ≤ 4 → ∃ m, motorOf index = some m) ∧
  ∀ ch : Nat, ch ≤ 7 → ∃ m, (pn m = ch ∨ pp m = ch) ∧ ∀ m', pn m' = ch ∨ pp m' = ch → m' = m

/-- DRVM (R115): on motor 1 to 4, positive channel first, the duty on the channel the direction selects (inverted for
motors 3 and 4) and 0 on the other; on any other index only the lazy initialisation. Nothing else changes. That CCW
counts as −1 is the spec's decision D4; where the initialisation happens, here and in every command below, is D6. -/
def Obligations.DrvmDrivesOneMotor : Prop :=
  ∀ (dir : Bool) (motor speed : Nat) (s : State),
    (1 ≤ motor → motor ≤ 4 → ∃ t, exec (.drvm dir motor speed) s = .next t ∧
      let p : Fin 16 := Fin.ofNat 16 ((4 - motor) * 2 + 1)
      let n : Fin 16 := Fin.ofNat 16 ((4 - motor) * 2)
      let ahead : Bool := dir == decide (3 ≤ motor)
      let onP : Tick := if ahead then duty speed else 0
      let onN : Tick := if ahead then 0 else duty speed
      t = { s with bank := t.bank, pwmInit := true
                   trace := s.trace ++ pwmStart s ++ [.pwmSet p 0 onP, .pwmSet n 0 onN] } ∧
      channel t p = ⟨0, onP⟩ ∧ channel t n = ⟨0, onN⟩ ∧
      ∀ ch, ch ≠ p → ch ≠ n → channel t ch = channel s ch) ∧
    (motor < 1 ∨ 4 < motor →
      exec (.drvm dir motor speed) s = .next { s with pwmInit := true, trace := s.trace ++ pwmStart s })

/-- MEC (R120): on code 1 to 9 the eight motor channels get the actions of that row of `MEC_ROM` with the speed's duty, and
nothing else changes; on any other code only the lazy initialisation. The numbering of the codes and the order of
the eight events are the spec's decisions D7 and D10. -/
def Obligations.MecRoutesFourMotors : Prop :=
  ∀ (code speed : Nat) (s : State),
    (1 ≤ code → code ≤ 9 → ∃ d t, mecDirOf code = some d ∧ exec (.mec code speed) s = .next t ∧
      RoutesTo (mecRom Config.roms d) (duty speed) s t) ∧
    (code < 1 ∨ 9 < code →
      exec (.mec code speed) s = .next { s with pwmInit := true, trace := s.trace ++ pwmStart s })

/-- Mecanum direction 2, "forward", the one row the source prints: channels 7, 5, 2, 0 receive the speed, channels 6, 4, 3, 1
receive 0 (R121), whatever the open rows are; the servo channels and everything but the bank, `pwm_init` and the trace stay. -/
def Obligations.MecForwardRow : Prop :=
  ∀ (speed : Nat) (s : State), ∃ t, exec (.mec 2 speed) s = .next t ∧
    (∀ ch ∈ ([7, 5, 2, 0] : List (Fin 16)), channel t ch = ⟨0, duty speed⟩) ∧
    (∀ ch ∈ ([6, 4, 3, 1] : List (Fin 16)), channel t ch = ⟨0, 0⟩) ∧
    (∀ ch : Fin 16, 8 ≤ ch.val → channel t ch = channel s ch) ∧
    t = { s with bank := t.bank, pwmInit := true, trace := t.trace }

/-- NRM (R122): on code 1 to 4 the eight motor channels get the actions of that row of `NRM_ROM` with the speed's duty, and
nothing else changes; on any other code only the lazy initialisation. The numbering of the codes is the spec's
decision D9, the order of the events D10. -/
def Obligations.NrmRoutesFourMotors : Prop :=
  ∀ (code speed : Nat) (s : State),
    (1 ≤ code → code ≤ 4 → ∃ d t, nrmDirOf code = some d ∧ exec (.nrm code speed) s = .next t ∧
      RoutesTo (fun m => driveAction (Config.roms.nrm d m)) (duty speed) s t) ∧
    (code < 1 ∨ 4 < code →
      exec (.nrm code speed) s = .next { s with pwmInit := true, trace := s.trace ++ pwmStart s })

/-- STPM (R123): on motor 1 to 4 both channels of the motor become (0, 0), positive first, and nothing else changes; on any
other index only the lazy initialisation. The check of the index is the spec's decision D11. -/
def Obligations.StpmStopsOneMotor : Prop :=
  ∀ (motor : Nat) (s : State),
    (1 ≤ motor → motor ≤ 4 → ∃ t, exec (.stpm motor) s = .next t ∧
      let p : Fin 16 := Fin.ofNat 16 ((4 - motor) * 2 + 1)
      let n : Fin 16 := Fin.ofNat 16 ((4 - motor) * 2)
      t = { s with bank := t.bank, pwmInit := true
                   trace := s.trace ++ pwmStart s ++ [.pwmSet p 0 0, .pwmSet n 0 0] } ∧
      channel t p = ⟨0, 0⟩ ∧ channel t n = ⟨0, 0⟩ ∧
      ∀ ch, ch ≠ p → ch ≠ n → channel t ch = channel s ch) ∧
    (motor < 1 ∨ 4 < motor →
      exec (.stpm motor) s = .next { s with pwmInit := true, trace := s.trace ++ pwmStart s })

/-- STPM has the effect of DRVM with speed 0 in either direction, on state and trace, for every index (R123). -/
def Obligations.StpmIsDrvmAtZero : Prop :=
  ∀ (motor : Nat) (dir : Bool) (s : State), exec (.stpm motor) s = exec (.drvm dir motor 0) s

/-- STPA (R124): channels 0 to 7 become (0, 0), channels 8 to 15 and everything else stay. The order of the events is the
spec's decision D10. -/
def Obligations.StpaStopsAllMotors : Prop :=
  ∀ s : State, ∃ t, exec .stpa s = .next t ∧ RoutesTo (fun _ => .Z) 0 s t ∧
    ∀ ch : Fin 16, ch.val ≤ 7 → channel t ch = ⟨0, 0⟩

/-- SRV (R126): index 0 to 8 writes the pulse of the angle, clamped to 180, to channel index + 7 and nothing else; from index 9
on the write is dropped without an event. That index 0 is not checked is the spec's decision D13. -/
def Obligations.SrvWritesOneServo : Prop :=
  ∀ (index angle : Nat) (s : State),
    (index ≤ 8 → ∃ t, exec (.srv index angle) s = .next t ∧
      let ch : Fin 16 := Fin.ofNat 16 (index + 7)
      let off : Tick := BitVec.ofNat 12 ((min angle 180 * 10 + 600) * 4096 / 20000)
      t = { s with bank := t.bank, pwmInit := true, trace := s.trace ++ pwmStart s ++ [.pwmSet ch 0 off] } ∧
      channel t ch = ⟨0, off⟩ ∧ ∀ c, c ≠ ch → channel t c = channel s c) ∧
    (9 ≤ index →
      exec (.srv index angle) s = .next { s with pwmInit := true, trace := s.trace ++ pwmStart s })

/-- STEP (R127): on pair 1 or 2 the four entries of `STEP_ROM` for the model, pair and direction are written in order, the last
write of a channel standing, and nothing else changes; on any other index only the lazy initialisation. That there are two
pairs is the spec's decision D12. -/
def Obligations.StepWritesFourPhases : Prop :=
  ∀ (dir : Bool) (pair : Nat) (model : Bool) (s : State),
    (1 ≤ pair → pair ≤ 2 → ∃ t, exec (.step dir pair model) s = .next t ∧
      let e := Config.roms.step (if model then .m42 else .m28) (if pair = 1 then .p1 else .p2) dir
      t = { s with bank := t.bank, pwmInit := true
                   trace := s.trace ++ pwmStart s ++
                     [.pwmSet (e 0).ch (e 0).on (e 0).off, .pwmSet (e 1).ch (e 1).on (e 1).off,
                      .pwmSet (e 2).ch (e 2).on (e 2).off, .pwmSet (e 3).ch (e 3).on (e 3).off] } ∧
      (∀ k, (∀ k', k < k' → (e k').ch ≠ (e k).ch) → channel t (e k).ch = ⟨(e k).on, (e k).off⟩) ∧
      ∀ ch, (∀ k, (e k).ch ≠ ch) → channel t ch = channel s ch) ∧
    (pair < 1 ∨ 2 < pair →
      exec (.step dir pair model) s = .next { s with pwmInit := true, trace := s.trace ++ pwmStart s })

/-! ### Pixels and text -/

/-- The glyph of a code starts at `(clamp(ch, 32, 127) - 32) * 5` in the font, a multiple of 5 from 0 to 475; codes up to 32 are
the space, codes from 127 on the glyph of 127; its five bytes are the font's at that index and the four after it
(R151). -/
def Obligations.GlyphIndexInFont : Prop :=
  (∀ ch : Nat, glyphBase ch = (max 32 (min ch 127) - 32) * 5 ∧ glyphBase ch % 5 = 0 ∧ glyphBase ch ≤ 475) ∧
  (∀ ch : Nat, ch ≤ 32 → glyphBase ch = 0) ∧ (∀ ch : Nat, 127 ≤ ch → glyphBase ch = 475) ∧
  ∀ (R : Roms) (ch : Nat) (i : Fin 5), ∃ h : glyphBase ch + i.val < 480, glyphByte R ch i = R.font ⟨glyphBase ch + i.val, h⟩

/-- SETPX inside the picture (R152): the pixel gets the colour, the byte's other seven bits and every other byte stay, the one
byte is streamed, and nothing else changes. That the byte is streamed is the spec's decision D17. -/
def Obligations.SetpxSetsOnePixel : Prop :=
  ∀ (colour : Bool) (x y : Nat) (s : State), x ≤ 127 → y ≤ 63 →
    ∃ t, exec (.setpx colour x y) s = .next t ∧
      let i := x + (y / 8) * 128 + 1
      t = { s with fb := t.fb, dispInit := true
                   trace := s.trace ++ dispStart s ++ [.dispStream x (y / 8) [fbByte t i]] } ∧
      (fbByte t i).getLsbD (y % 8) = colour ∧
      (∀ n, n < 8 → n ≠ y % 8 → (fbByte t i).getLsbD n = (fbByte s i).getLsbD n) ∧
      BytesSameExcept (· = i) s t

/-- SETPX outside the picture is unpredictable: the model faults (R56, R152, R243). -/
def Obligations.SetpxOutsideFaults : Prop :=
  ∀ (colour : Bool) (x y : Nat) (s : State), 127 < x ∨ 63 < y → exec (.setpx colour x y) s = .fault .fbOob

/-- `SetPixel` (R57): inside the picture it gives the pixel's bit the value, keeps the byte's other seven bits and everything
else, and emits nothing; outside it is unpredictable, which is the fault `fbOob` (R56, decision D22, log entry 4). A pixel set and then cleared is 0, the other seven bits as before,
so the byte is restored exactly when the pixel was off before. -/
def Obligations.SetPixelWritesOneBit : Prop :=
  ∀ (x y : Nat) (s : State),
    let i := x + (y / 8) * 128 + 1
    (127 < x ∨ 63 < y → ∀ v, setPixel x y v s = .fault .fbOob) ∧
    (x ≤ 127 → y ≤ 63 → ∀ v, ∃ t, setPixel x y v s = .next t ∧ t = { s with fb := t.fb } ∧
      (fbByte t i).getLsbD (y % 8) = v ∧
      (∀ n, n < 8 → n ≠ y % 8 → (fbByte t i).getLsbD n = (fbByte s i).getLsbD n) ∧ BytesSameExcept (· = i) s t) ∧
    (x ≤ 127 → y ≤ 63 → ∃ t u, setPixel x y true s = .next t ∧ setPixel x y false t = .next u ∧
      (fbByte u i).getLsbD (y % 8) = false ∧
      (∀ n, n < 8 → n ≠ y % 8 → (fbByte u i).getLsbD n = (fbByte s i).getLsbD n) ∧
      (fbByte u i = fbByte s i ↔ (fbByte s i).getLsbD (y % 8) = false))

/-- DRAWCH in single size inside a page (R154): five font bytes, inverted when the colour is 0, and the spacing column replace
six bytes; every other byte stays; the six bytes are streamed; nothing else changes. -/
def Obligations.DrawchSingleCopiesGlyph : Prop :=
  ∀ (colour : Bool) (ch col row : Nat) (s : State),
    s.cfgZoom = false → s.cfgDbl = false → row ≤ 7 → col ≤ 122 →
    ∃ t, exec (.drawch colour ch col row) s = .next t ∧
      let i := col + row * 128 + 1
      let inv : Byte := if colour then 0x00 else 0xFF
      t = { s with fb := t.fb, dispInit := true
                   trace := s.trace ++ dispStart s ++
                     [.dispStream col row [fbByte t i, fbByte t (i + 1), fbByte t (i + 2), fbByte t (i + 3),
                        fbByte t (i + 4), fbByte t (i + 5)]] } ∧
      (∀ k : Fin 5, fbByte t (i + k) = Config.roms.font (glyphIndex ch k) ^^^ inv) ∧ fbByte t (i + 5) = inv ∧
      BytesSameExcept (fun j => i ≤ j ∧ j < i + 6) s t

/-- DRAWCH in double size inside the picture (R155): each font bit, inverted when the colour is 0, becomes a 2×2 block of the
10×16 region; every other pixel and the header stay; no event but the first initialisation; nothing else
changes. That clear bits are drawn and the spacing columns are not is the spec's decision D16. -/
def Obligations.DrawchDoubleDrawsBlocks : Prop :=
  ∀ (colour : Bool) (ch col row : Nat) (s : State),
    s.cfgZoom = false → s.cfgDbl = true → row ≤ 6 → col ≤ 118 →
    ∃ t, exec (.drawch colour ch col row) s = .next t ∧
      t = { s with fb := t.fb, dispInit := true, trace := s.trace ++ dispStart s } ∧
      (∀ x y, x < 128 → y < 64 → pixel t x y =
        if col ≤ x ∧ x < col + 10 ∧ row * 8 ≤ y ∧ y < row * 8 + 16 then
          (Config.roms.font (glyphIndex ch (Fin.ofNat 5 ((x - col) / 2)))).getLsbD ((y - row * 8) / 2) ^^ !colour
        else pixel s x y) ∧
      BytesSameExcept (fun j => 1 ≤ j ∧ j ≤ 1024) s t

/-- DRAWCH of a glyph that would leave its page or the picture is unpredictable: the model faults (R56, R154, R155, R243). -/
def Obligations.DrawchOutsideFaults : Prop :=
  ∀ (colour : Bool) (ch col row : Nat) (s : State), s.cfgZoom = false →
    (s.cfgDbl = false ∧ (7 < row ∨ 122 < col)) ∨ (s.cfgDbl = true ∧ (6 < row ∨ 118 < col)) →
    exec (.drawch colour ch col row) s = .fault .fbOob

/-- PRINTCH where the glyph fits (R156): it draws as DRAWCH does at the cursor, then advances the cursor by 6 or 12, and when the
advanced column exceeds 120 it then does what NEWLINE does. When the test is made is the spec's decision D19. -/
def Obligations.PrintchDrawsThenAdvances : Prop :=
  ∀ (colour : Bool) (ch : Nat) (s : State), s.cfgZoom = false →
    (s.cfgDbl = false ∧ s.cy.toNat ≤ 7 ∧ s.cx.toNat ≤ 122) ∨ (s.cfgDbl = true ∧ s.cy.toNat ≤ 6 ∧ s.cx.toNat ≤ 118) →
    ∃ d t, exec (.drawch colour ch s.cx.toNat s.cy.toNat) s = .next d ∧ exec (.printch colour ch) s = .next t ∧
      let cx' := s.cx.toNat + if s.cfgDbl then 12 else 6
      (cx' ≤ 120 → t = { d with cx := BitVec.ofNat 8 cx' }) ∧ (120 < cx' → exec .newline d = .next t)

/-- PRINTCH of a glyph that would leave the picture faults; in double size that is at row 7 or from column 119 on (R56,
R156, R244). -/
def Obligations.PrintchOutsideFaults : Prop :=
  ∀ (colour : Bool) (ch : Nat) (s : State), s.cfgZoom = false →
    (s.cfgDbl = false ∧ (7 < s.cy.toNat ∨ 122 < s.cx.toNat)) ∨
      (s.cfgDbl = true ∧ (6 < s.cy.toNat ∨ 118 < s.cx.toNat)) →
    exec (.printch colour ch) s = .fault .fbOob

/-- NEWLINE above the bottom row (R157, R159): column 0 of the next page, no event but the first initialisation, nothing else
changes. That a row is one page in both sizes is the spec's decision D19. -/
def Obligations.NewlineMovesDown : Prop :=
  ∀ s : State, s.cy.toNat < 7 →
    exec .newline s = .next { s with cx := 0, cy := s.cy + 1, dispInit := true, trace := s.trace ++ dispStart s }

/-- NEWLINE on the bottom row (R157, R158): the row stays 7, every page takes the page below it, page 7 becomes blank, the header
is the tag, one full flush, nothing else changes. The fill of page 7 is the spec's decision D20. -/
def Obligations.NewlineScrollsAtTheBottom : Prop :=
  ∀ s : State, s.cy = 7 → ∃ t, exec .newline s = .next t ∧
    t = { s with fb := t.fb, cx := 0, cy := 7, dispInit := true
                 trace := s.trace ++ dispStart s ++ [.dispFlush ((List.range 1025).map (fbByte t))] } ∧
    (∀ i, 1 ≤ i → i ≤ 896 → fbByte t i = fbByte s (i + 128)) ∧
    (∀ i, 897 ≤ i → i ≤ 1024 → fbByte t i = 0x00) ∧ fbByte t 0 = 0x40

/-- From the bottom row, eight NEWLINEs in a row go on and leave the whole payload zero (R159). -/
def Obligations.EightNewlinesBlankThePicture : Prop :=
  ∀ s : State, s.cy = 7 → ∃ t, issue (List.replicate 8 .newline) s = .next t ∧
    t.cy = 7 ∧ ∀ i, 1 ≤ i → i ≤ 1024 → fbByte t i = 0x00

/-- The scroll, given as one assignment of the whole payload, is the loop of R158: ascending copies by 128, the fill, the header
re-tagged. -/
def Obligations.ScrollIsTheLoop : Prop :=
  ∀ s : State, s.fb.wf →
    scroll s = fbWrite 0 0x40 ((List.range' 897 128).foldl (fun s i => fbWrite i 0x00 s)
      ((List.range' 1 896).foldl (fun s i => fbWrite i (fbByte s (i + 128)) s) s))

/-- DRAWSTR in the current size is free of `U_FB_OOB` exactly when its last character fits (R92, R160 (b)). -/
def Obligations.DrawstrFitsExactly : Prop :=
  ∀ (colour : Bool) (text : List Nat) (col row : Nat) (is : List Instr) (s : State),
    s.cfgZoom = false → text ≠ [] → drawStr s.cfgDbl colour row text col = some is →
    ((∃ t, issue is s = .next t) ↔
      if s.cfgDbl then row ≤ 6 ∧ col + 12 * (text.length - 1) ≤ 118
      else row ≤ 7 ∧ col + 6 * (text.length - 1) ≤ 122)

/-- PRINTSTR in single size never meets the unpredictable case from a state that meets the invariant, and keeps it
(R94, R156, R160 (c)). -/
def Obligations.PrintstrSingleNeverStops : Prop :=
  ∀ (text : List Nat) (newline colour : Bool) (s : State), StateInv s → s.cfgDbl = false →
    ∃ t, issue (printStr text newline colour) s = .next t ∧ StateInv t

/-! ### Shapes and control -/

/-- HLINE (R180, R181): exactly the pixels of the segment that lie inside the picture get the colour, then one full flush of the
result; nothing else changes. The direction and the unconditional flush are the spec's decision D21. -/
def Obligations.HlineDrawsClipped : Prop :=
  ∀ (colour : Bool) (x y len : Nat) (s : State), ∃ t, exec (.hline colour x y len) s = .next t ∧
    t = { s with fb := t.fb, dispInit := true
                 trace := s.trace ++ dispStart s ++ [.dispFlush ((List.range 1025).map (fbByte t))] } ∧
    (∀ x' y', x' < 128 → y' < 64 → pixel t x' y' =
      if y' = y ∧ x ≤ x' ∧ x' < x + len then colour else pixel s x' y') ∧
    BytesSameExcept (fun j => 1 ≤ j ∧ j ≤ 1024) s t

/-- VLINE (R182, R183): exactly the pixels of the segment that lie inside the picture get the colour, then one full flush of the
result; nothing else changes. The direction and the unconditional flush are the spec's decision D21. -/
def Obligations.VlineDrawsClipped : Prop :=
  ∀ (colour : Bool) (x y len : Nat) (s : State), ∃ t, exec (.vline colour x y len) s = .next t ∧
    t = { s with fb := t.fb, dispInit := true
                 trace := s.trace ++ dispStart s ++ [.dispFlush ((List.range 1025).map (fbByte t))] } ∧
    (∀ x' y', x' < 128 → y' < 64 → pixel t x' y' =
      if x' = x ∧ y ≤ y' ∧ y' < y + len then colour else pixel s x' y') ∧
    BytesSameExcept (fun j => 1 ≤ j ∧ j ≤ 1024) s t

/-- RECT (R184): exactly the outline of the rectangle between the two corners gets the colour, the inside and everything else
stays, one full flush of the result at the end. -/
def Obligations.RectDrawsTheOutline : Prop :=
  ∀ (colour : Bool) (x1 y1 x2 y2 : Nat) (s : State), ∃ t, exec (.rect colour x1 y1 x2 y2) s = .next t ∧
    t = { s with fb := t.fb, dispInit := true
                 trace := s.trace ++ dispStart s ++ [.dispFlush ((List.range 1025).map (fbByte t))] } ∧
    (∀ x y, x < 128 → y < 64 → pixel t x y =
      if min x1 x2 ≤ x ∧ x ≤ max x1 x2 ∧ min y1 y2 ≤ y ∧ y ≤ max y1 y2 ∧
          (x = x1 ∨ x = x2 ∨ y = y1 ∨ y = y2) then colour
      else pixel s x y) ∧
    BytesSameExcept (fun j => 1 ≤ j ∧ j ≤ 1024) s t

/-- CLEAR (R185): cursor (0, 0), payload zero, header tagged, one full flush of 0x40 and 1024 zeros; nothing else changes. -/
def Obligations.ClearBlanksEverything : Prop :=
  ∀ s : State, ∃ t, exec .clear s = .next t ∧
    t = { s with fb := t.fb, cx := 0, cy := 0, dispInit := true
                 trace := s.trace ++ dispStart s ++ [.dispFlush (0x40 :: List.replicate 1024 0x00)] } ∧
    fbByte t 0 = 0x40 ∧ ∀ i, 1 ≤ i → i ≤ 1024 → fbByte t i = 0x00

/-- CLEAR's payload, given as one assignment, is the loop of R185: each payload byte zeroed, the header re-tagged. -/
def Obligations.ClearIsTheLoop : Prop :=
  ∀ s : State, s.fb.wf →
    clearFb s = fbWrite 0 0x40 ((List.range' 1 1024).foldl (fun s i => fbWrite i 0x00 s) s)

/-- FLUSH (R59, R186): the 1025 bytes of the buffer, header first, in one event; no state but the trace and `disp_init` changes.
That the command exists is the spec's decision D30. -/
def Obligations.FlushSendsTheBuffer : Prop :=
  ∀ s : State, exec .flush s = .next { s with
    dispInit := true, trace := s.trace ++ dispStart s ++ [.dispFlush ((List.range 1025).map (fbByte s))] }

/-- CFG (R187): `cfg.DBL` takes the operand and nothing else changes; the display is not initialised and no event is emitted. -/
def Obligations.CfgSetsDoubleSize : Prop :=
  ∀ (dbl : Bool) (s : State), exec (.cfg dbl) s = .next { s with cfgDbl := dbl }

/-- INVERT (R188) and DISPLAY (R189): one command event and the display-side state set to the operand; nothing else changes. -/
def Obligations.InvertAndDisplayPassThrough : Prop :=
  ∀ (on : Bool) (s : State),
    exec (.invert on) s = .next { s with
      dispInit := true, trace := s.trace ++ dispStart s ++ [.dispCmdInvert on]
      dispPolarity := if on then .inverted else .normal } ∧
    exec (.display on) s = .next { s with
      dispInit := true, trace := s.trace ++ dispStart s ++ [.dispCmdPower on]
      dispPower := if on then .on else .off }

/-! ### The display's picture -/

/-- Every command that flushes fully leaves the display, as R72 lets a model take it, showing the whole framebuffer, whatever
it showed before (R241): HLINE, VLINE, RECT, CLEAR, FLUSH, and NEWLINE and PRINTCH when they scroll. In double size a
PRINTCH on row 7 does not go on, so there it scrolls in single size alone. What the display shows is log entries 18
and 23. -/
def Obligations.FullFlushDeliversEverything : Prop :=
  ∀ (i : Instr) (s t : State),
    (∃ c x y n, i = .hline c x y n ∨ i = .vline c x y n) ∨ (∃ c x1 y1 x2 y2, i = .rect c x1 y1 x2 y2) ∨
      i = .clear ∨ i = .flush ∨ (i = .newline ∧ 7 ≤ s.cy.toNat) ∨
      (∃ c ch, i = .printch c ch ∧ 7 ≤ s.cy.toNat ∧ 120 < s.cx.toNat + if s.cfgDbl then 12 else 6) →
    exec i s = .next t → picture t.trace = some ((List.range 1025).map (fbByte t))

/-- In single size, an initialised display that shows the framebuffer goes on showing it: over every command and over every
step the display stays initialised and current, since each command delivers what it draws, and single size stays but for
CFG 1, so the three together are kept by every step whose word is not CFG 1 (R72, R160 (c), R241). What the display
shows is log entries 18 and 23. -/
def Obligations.SingleSizeKeepsDisplayCurrent : Prop :=
  (∀ (i : Instr) (s t : State), s.cfgDbl = false → s.dispInit = true →
    picture s.trace = some ((List.range 1025).map (fbByte s)) → exec i s = .next t →
    t.dispInit = true ∧ picture t.trace = some ((List.range 1025).map (fbByte t)) ∧
    (i ≠ .cfg true → t.cfgDbl = false)) ∧
  ∀ s t : State, s.cfgDbl = false → s.dispInit = true →
    picture s.trace = some ((List.range 1025).map (fbByte s)) → step s = .next t →
    t.dispInit = true ∧ picture t.trace = some ((List.range 1025).map (fbByte t)) ∧
    ((∀ w ws, s.commands = w :: ws → decode w ≠ .ok (.cfg true)) → t.cfgDbl = false)

/-- STPA and then CLEAR, from any state, go on and make known what R232 says they do: the motor channels (0, 0), the framebuffer
blank and tagged, the cursor at (0, 0), both devices initialised, the display showing the framebuffer, as R72 lets a model
take it (log entries 18 and 23). The servo channels, both mode flags, the display's power and polarity and the host's
sequence stay as they were, so what reset left unspecified there stays so. -/
def Obligations.StpaThenClearMakesKnown : Prop :=
  ∀ s : State, ∃ t, issue [.stpa, .clear] s = .next t ∧
    t = { s with bank := t.bank, pwmInit := true, dispInit := true, fb := t.fb, cx := 0, cy := 0, trace := t.trace } ∧
    (∀ ch : Fin 16, ch.val ≤ 7 → channel t ch = ⟨0, 0⟩) ∧ (∀ ch : Fin 16, 8 ≤ ch.val → channel t ch = channel s ch) ∧
    fbByte t 0 = 0x40 ∧ (∀ i, 1 ≤ i → i ≤ 1024 → fbByte t i = 0x00) ∧
    picture t.trace = some ((List.range 1025).map (fbByte t))
end

