-- ==== Sys2Proof/Laws/Encoding.lean ====
section
/-! SUPPORT. The bits and the fields of the two formats (R81, R82, R85). -/

namespace Sys2Proof

theorem getLsbD_formatS (op : BitVec 5) (q : Bool) (a b c i : Nat) :
    (formatS op q a b c).getLsbD i =
      if i < 8 then c.testBit i else if i < 16 then b.testBit (i - 8) else if i < 24 then a.testBit (i - 16)
      else if i < 26 then false else if i = 26 then q else op.getLsbD (i - 27) := by
  unfold formatS
  simp only [BitVec.getLsbD_append]
  simp only [BitVec.getLsbD_ofNat, BitVec.getLsbD_ofBool, Nat.sub_sub]
  grind

theorem getLsbD_formatR (op : BitVec 5) (q : Bool) (x1 y1 x2 y2 i : Nat) :
    (formatR op q x1 y1 x2 y2).getLsbD i =
      if i < 6 then y2.testBit i else if i < 13 then x2.testBit (i - 6) else if i < 19 then y1.testBit (i - 13)
      else if i < 26 then x1.testBit (i - 19) else if i = 26 then q else op.getLsbD (i - 27) := by
  unfold formatR
  simp only [BitVec.getLsbD_append]
  simp only [BitVec.getLsbD_ofNat, BitVec.getLsbD_ofBool, Nat.sub_sub]
  grind

@[simp] theorem fieldOp_formatS (op : BitVec 5) (q : Bool) (a b c : Nat) : fieldOp (formatS op q a b c) = op := by
  apply BitVec.eq_of_getLsbD_eq
  intro i hi
  simp only [fieldOp, BitVec.getLsbD_extractLsb', getLsbD_formatS]
  grind

@[simp] theorem fieldOp_formatR (op : BitVec 5) (q : Bool) (x1 y1 x2 y2 : Nat) :
    fieldOp (formatR op q x1 y1 x2 y2) = op := by
  apply BitVec.eq_of_getLsbD_eq
  intro i hi
  simp only [fieldOp, BitVec.getLsbD_extractLsb', getLsbD_formatR]
  grind

@[simp] theorem fieldQ_formatS (op : BitVec 5) (q : Bool) (a b c : Nat) : fieldQ (formatS op q a b c) = q := by
  simp only [fieldQ, getLsbD_formatS]
  simp

@[simp] theorem fieldQ_formatR (op : BitVec 5) (q : Bool) (x1 y1 x2 y2 : Nat) :
    fieldQ (formatR op q x1 y1 x2 y2) = q := by
  simp only [fieldQ, getLsbD_formatR]
  simp

/-- A field is the number put into it, modulo the field's size. -/
theorem field_eq {w : CmdWord} {lo n v : Nat} (h : ∀ i, i < n → w.getLsbD (lo + i) = v.testBit i) :
    (w.extractLsb' lo n).toNat = v % 2 ^ n := by
  have : w.extractLsb' lo n = BitVec.ofNat n v := by
    apply BitVec.eq_of_getLsbD_eq
    intro i hi
    simp only [BitVec.getLsbD_extractLsb', BitVec.getLsbD_ofNat, h i hi]
  rw [this, BitVec.toNat_ofNat]

@[simp] theorem fieldA_formatS (op : BitVec 5) (q : Bool) (a b c : Nat) :
    fieldA (formatS op q a b c) = a % 256 :=
  field_eq fun i hi => by rw [getLsbD_formatS]; grind

@[simp] theorem fieldB_formatS (op : BitVec 5) (q : Bool) (a b c : Nat) :
    fieldB (formatS op q a b c) = b % 256 :=
  field_eq fun i hi => by rw [getLsbD_formatS]; grind

@[simp] theorem fieldC_formatS (op : BitVec 5) (q : Bool) (a b c : Nat) :
    fieldC (formatS op q a b c) = c % 256 :=
  field_eq fun i hi => by rw [getLsbD_formatS]; grind

@[simp] theorem fieldX1_formatR (op : BitVec 5) (q : Bool) (x1 y1 x2 y2 : Nat) :
    fieldX1 (formatR op q x1 y1 x2 y2) = x1 % 128 :=
  field_eq fun i hi => by rw [getLsbD_formatR]; grind

@[simp] theorem fieldY1_formatR (op : BitVec 5) (q : Bool) (x1 y1 x2 y2 : Nat) :
    fieldY1 (formatR op q x1 y1 x2 y2) = y1 % 64 :=
  field_eq fun i hi => by rw [getLsbD_formatR]; grind

@[simp] theorem fieldX2_formatR (op : BitVec 5) (q : Bool) (x1 y1 x2 y2 : Nat) :
    fieldX2 (formatR op q x1 y1 x2 y2) = x2 % 128 :=
  field_eq fun i hi => by rw [getLsbD_formatR]; grind

@[simp] theorem fieldY2_formatR (op : BitVec 5) (q : Bool) (x1 y1 x2 y2 : Nat) :
    fieldY2 (formatR op q x1 y1 x2 y2) = y2 % 64 :=
  field_eq fun i hi => by rw [getLsbD_formatR]; grind

end Sys2Proof
end

