-- ==== Sys2Proof/Laws/State.lean ====
section
/-! SUPPORT. One lemma for each field of the state under each basic update, and the closed forms of the two lazy
initialisations; no later proof unfolds a record update. -/

namespace Sys2Proof.Machine

/-! ### `emit` -/

@[simp] theorem emit_bank (e : Event) (s : State) : (emit e s).bank = s.bank := rfl
@[simp] theorem emit_pwmInit (e : Event) (s : State) : (emit e s).pwmInit = s.pwmInit := rfl
@[simp] theorem emit_dispInit (e : Event) (s : State) : (emit e s).dispInit = s.dispInit := rfl
@[simp] theorem emit_fb (e : Event) (s : State) : (emit e s).fb = s.fb := rfl
@[simp] theorem emit_cx (e : Event) (s : State) : (emit e s).cx = s.cx := rfl
@[simp] theorem emit_cy (e : Event) (s : State) : (emit e s).cy = s.cy := rfl
@[simp] theorem emit_cfgDbl (e : Event) (s : State) : (emit e s).cfgDbl = s.cfgDbl := rfl
@[simp] theorem emit_cfgZoom (e : Event) (s : State) : (emit e s).cfgZoom = s.cfgZoom := rfl
@[simp] theorem emit_dispPower (e : Event) (s : State) : (emit e s).dispPower = s.dispPower := rfl
@[simp] theorem emit_dispPolarity (e : Event) (s : State) : (emit e s).dispPolarity = s.dispPolarity := rfl
@[simp] theorem emit_trace (e : Event) (s : State) : (emit e s).trace = s.trace ++ [e] := rfl
@[simp] theorem emit_commands (e : Event) (s : State) : (emit e s).commands = s.commands := rfl

/-! ### `writeCh` -/

@[simp] theorem writeCh_bank (ch : Fin 16) (on off : Tick) (s : State) : (writeCh ch on off s).bank =
    s.bank.set ch ⟨on, off⟩ :=
  rfl
@[simp] theorem writeCh_pwmInit (ch : Fin 16) (on off : Tick) (s : State) : (writeCh ch on off s).pwmInit =
    s.pwmInit :=
  rfl
@[simp] theorem writeCh_dispInit (ch : Fin 16) (on off : Tick) (s : State) : (writeCh ch on off s).dispInit =
    s.dispInit :=
  rfl
@[simp] theorem writeCh_fb (ch : Fin 16) (on off : Tick) (s : State) : (writeCh ch on off s).fb = s.fb := rfl
@[simp] theorem writeCh_cx (ch : Fin 16) (on off : Tick) (s : State) : (writeCh ch on off s).cx = s.cx := rfl
@[simp] theorem writeCh_cy (ch : Fin 16) (on off : Tick) (s : State) : (writeCh ch on off s).cy = s.cy := rfl
@[simp] theorem writeCh_cfgDbl (ch : Fin 16) (on off : Tick) (s : State) : (writeCh ch on off s).cfgDbl =
    s.cfgDbl :=
  rfl
@[simp] theorem writeCh_cfgZoom (ch : Fin 16) (on off : Tick) (s : State) : (writeCh ch on off s).cfgZoom =
    s.cfgZoom :=
  rfl
@[simp] theorem writeCh_dispPower (ch : Fin 16) (on off : Tick) (s : State) : (writeCh ch on off s).dispPower =
    s.dispPower :=
  rfl
@[simp] theorem writeCh_dispPolarity (ch : Fin 16) (on off : Tick) (s : State) : (writeCh ch on off s).dispPolarity =
    s.dispPolarity :=
  rfl
@[simp] theorem writeCh_trace (ch : Fin 16) (on off : Tick) (s : State) : (writeCh ch on off s).trace =
    s.trace ++ [.pwmSet ch on off] :=
  rfl
@[simp] theorem writeCh_commands (ch : Fin 16) (on off : Tick) (s : State) : (writeCh ch on off s).commands =
    s.commands :=
  rfl

/-! ### `fbWrite` -/

@[simp] theorem fbWrite_bank (i : Nat) (v : Byte) (s : State) : (fbWrite i v s).bank = s.bank := rfl
@[simp] theorem fbWrite_pwmInit (i : Nat) (v : Byte) (s : State) : (fbWrite i v s).pwmInit = s.pwmInit := rfl
@[simp] theorem fbWrite_dispInit (i : Nat) (v : Byte) (s : State) : (fbWrite i v s).dispInit = s.dispInit := rfl
@[simp] theorem fbWrite_fb (i : Nat) (v : Byte) (s : State) : (fbWrite i v s).fb = s.fb.write i v := rfl
@[simp] theorem fbWrite_cx (i : Nat) (v : Byte) (s : State) : (fbWrite i v s).cx = s.cx := rfl
@[simp] theorem fbWrite_cy (i : Nat) (v : Byte) (s : State) : (fbWrite i v s).cy = s.cy := rfl
@[simp] theorem fbWrite_cfgDbl (i : Nat) (v : Byte) (s : State) : (fbWrite i v s).cfgDbl = s.cfgDbl := rfl
@[simp] theorem fbWrite_cfgZoom (i : Nat) (v : Byte) (s : State) : (fbWrite i v s).cfgZoom = s.cfgZoom := rfl
@[simp] theorem fbWrite_dispPower (i : Nat) (v : Byte) (s : State) : (fbWrite i v s).dispPower = s.dispPower := rfl
@[simp] theorem fbWrite_dispPolarity (i : Nat) (v : Byte) (s : State) : (fbWrite i v s).dispPolarity =
    s.dispPolarity :=
  rfl
@[simp] theorem fbWrite_trace (i : Nat) (v : Byte) (s : State) : (fbWrite i v s).trace = s.trace := rfl
@[simp] theorem fbWrite_commands (i : Nat) (v : Byte) (s : State) : (fbWrite i v s).commands = s.commands := rfl

/-! ### `flushAll` -/

@[simp] theorem flushAll_bank (s : State) : (flushAll s).bank = s.bank := rfl
@[simp] theorem flushAll_pwmInit (s : State) : (flushAll s).pwmInit = s.pwmInit := rfl
@[simp] theorem flushAll_dispInit (s : State) : (flushAll s).dispInit = s.dispInit := rfl
@[simp] theorem flushAll_fb (s : State) : (flushAll s).fb = s.fb := rfl
@[simp] theorem flushAll_cx (s : State) : (flushAll s).cx = s.cx := rfl
@[simp] theorem flushAll_cy (s : State) : (flushAll s).cy = s.cy := rfl
@[simp] theorem flushAll_cfgDbl (s : State) : (flushAll s).cfgDbl = s.cfgDbl := rfl
@[simp] theorem flushAll_cfgZoom (s : State) : (flushAll s).cfgZoom = s.cfgZoom := rfl
@[simp] theorem flushAll_dispPower (s : State) : (flushAll s).dispPower = s.dispPower := rfl
@[simp] theorem flushAll_dispPolarity (s : State) : (flushAll s).dispPolarity = s.dispPolarity := rfl
@[simp] theorem flushAll_trace (s : State) : (flushAll s).trace = s.trace ++ [.dispFlush (image s)] := rfl
@[simp] theorem flushAll_commands (s : State) : (flushAll s).commands = s.commands := rfl

/-! ### `streamAt` -/

@[simp] theorem streamAt_bank (col page n : Nat) (s : State) : (streamAt col page n s).bank = s.bank := rfl
@[simp] theorem streamAt_pwmInit (col page n : Nat) (s : State) : (streamAt col page n s).pwmInit = s.pwmInit := rfl
@[simp] theorem streamAt_dispInit (col page n : Nat) (s : State) : (streamAt col page n s).dispInit =
    s.dispInit :=
  rfl
@[simp] theorem streamAt_fb (col page n : Nat) (s : State) : (streamAt col page n s).fb = s.fb := rfl
@[simp] theorem streamAt_cx (col page n : Nat) (s : State) : (streamAt col page n s).cx = s.cx := rfl
@[simp] theorem streamAt_cy (col page n : Nat) (s : State) : (streamAt col page n s).cy = s.cy := rfl
@[simp] theorem streamAt_cfgDbl (col page n : Nat) (s : State) : (streamAt col page n s).cfgDbl = s.cfgDbl := rfl
@[simp] theorem streamAt_cfgZoom (col page n : Nat) (s : State) : (streamAt col page n s).cfgZoom = s.cfgZoom := rfl
@[simp] theorem streamAt_dispPower (col page n : Nat) (s : State) : (streamAt col page n s).dispPower =
    s.dispPower :=
  rfl
@[simp] theorem streamAt_dispPolarity (col page n : Nat) (s : State) : (streamAt col page n s).dispPolarity =
    s.dispPolarity :=
  rfl
@[simp] theorem streamAt_trace (col page n : Nat) (s : State) : (streamAt col page n s).trace =
    s.trace ++ [.dispStream col page ((List.range' (fbIndex col page) n).map (fbByte s))] :=
  rfl
@[simp] theorem streamAt_commands (col page n : Nat) (s : State) : (streamAt col page n s).commands =
    s.commands :=
  rfl

/-! ### `scroll` -/

@[simp] theorem scroll_bank (s : State) : (scroll s).bank = s.bank := rfl
@[simp] theorem scroll_pwmInit (s : State) : (scroll s).pwmInit = s.pwmInit := rfl
@[simp] theorem scroll_dispInit (s : State) : (scroll s).dispInit = s.dispInit := rfl
@[simp] theorem scroll_fb (s : State) : (scroll s).fb =
    Memory.ofPayload fun i => if i ≤ 896 then fbByte s (i + 128) else 0x00 :=
  rfl
@[simp] theorem scroll_cx (s : State) : (scroll s).cx = s.cx := rfl
@[simp] theorem scroll_cy (s : State) : (scroll s).cy = s.cy := rfl
@[simp] theorem scroll_cfgDbl (s : State) : (scroll s).cfgDbl = s.cfgDbl := rfl
@[simp] theorem scroll_cfgZoom (s : State) : (scroll s).cfgZoom = s.cfgZoom := rfl
@[simp] theorem scroll_dispPower (s : State) : (scroll s).dispPower = s.dispPower := rfl
@[simp] theorem scroll_dispPolarity (s : State) : (scroll s).dispPolarity = s.dispPolarity := rfl
@[simp] theorem scroll_trace (s : State) : (scroll s).trace = s.trace := rfl
@[simp] theorem scroll_commands (s : State) : (scroll s).commands = s.commands := rfl

/-! ### `clearFb` -/

@[simp] theorem clearFb_bank (s : State) : (clearFb s).bank = s.bank := rfl
@[simp] theorem clearFb_pwmInit (s : State) : (clearFb s).pwmInit = s.pwmInit := rfl
@[simp] theorem clearFb_dispInit (s : State) : (clearFb s).dispInit = s.dispInit := rfl
@[simp] theorem clearFb_fb (s : State) : (clearFb s).fb = Memory.ofPayload fun _ => 0x00 := rfl
@[simp] theorem clearFb_cx (s : State) : (clearFb s).cx = s.cx := rfl
@[simp] theorem clearFb_cy (s : State) : (clearFb s).cy = s.cy := rfl
@[simp] theorem clearFb_cfgDbl (s : State) : (clearFb s).cfgDbl = s.cfgDbl := rfl
@[simp] theorem clearFb_cfgZoom (s : State) : (clearFb s).cfgZoom = s.cfgZoom := rfl
@[simp] theorem clearFb_dispPower (s : State) : (clearFb s).dispPower = s.dispPower := rfl
@[simp] theorem clearFb_dispPolarity (s : State) : (clearFb s).dispPolarity = s.dispPolarity := rfl
@[simp] theorem clearFb_trace (s : State) : (clearFb s).trace = s.trace := rfl
@[simp] theorem clearFb_commands (s : State) : (clearFb s).commands = s.commands := rfl

/-! ### `setDbl` -/

@[simp] theorem setDbl_bank (v : Bool) (s : State) : (setDbl v s).bank = s.bank := rfl
@[simp] theorem setDbl_pwmInit (v : Bool) (s : State) : (setDbl v s).pwmInit = s.pwmInit := rfl
@[simp] theorem setDbl_dispInit (v : Bool) (s : State) : (setDbl v s).dispInit = s.dispInit := rfl
@[simp] theorem setDbl_fb (v : Bool) (s : State) : (setDbl v s).fb = s.fb := rfl
@[simp] theorem setDbl_cx (v : Bool) (s : State) : (setDbl v s).cx = s.cx := rfl
@[simp] theorem setDbl_cy (v : Bool) (s : State) : (setDbl v s).cy = s.cy := rfl
@[simp] theorem setDbl_cfgDbl (v : Bool) (s : State) : (setDbl v s).cfgDbl = v := rfl
@[simp] theorem setDbl_cfgZoom (v : Bool) (s : State) : (setDbl v s).cfgZoom = s.cfgZoom := rfl
@[simp] theorem setDbl_dispPower (v : Bool) (s : State) : (setDbl v s).dispPower = s.dispPower := rfl
@[simp] theorem setDbl_dispPolarity (v : Bool) (s : State) : (setDbl v s).dispPolarity = s.dispPolarity := rfl
@[simp] theorem setDbl_trace (v : Bool) (s : State) : (setDbl v s).trace = s.trace := rfl
@[simp] theorem setDbl_commands (v : Bool) (s : State) : (setDbl v s).commands = s.commands := rfl

/-! ### The lazy initialisations -/

theorem pwmLazyInit_eq (s : State) :
    pwmLazyInit s = { s with pwmInit := true, trace := s.trace ++ pwmStart s } := by
  cases s with
  | mk bank pwmInit dispInit fb cx cy cfgDbl cfgZoom dispPower dispPolarity trace commands =>
    cases pwmInit <;> simp [pwmLazyInit, pwmStart, emit]

@[simp] theorem pwmLazyInit_bank (s : State) : (pwmLazyInit s).bank = s.bank := by
  rw [pwmLazyInit_eq]
@[simp] theorem pwmLazyInit_pwmInit (s : State) : (pwmLazyInit s).pwmInit = true := by
  rw [pwmLazyInit_eq]
@[simp] theorem pwmLazyInit_dispInit (s : State) : (pwmLazyInit s).dispInit = s.dispInit := by
  rw [pwmLazyInit_eq]
@[simp] theorem pwmLazyInit_fb (s : State) : (pwmLazyInit s).fb = s.fb := by
  rw [pwmLazyInit_eq]
@[simp] theorem pwmLazyInit_cx (s : State) : (pwmLazyInit s).cx = s.cx := by
  rw [pwmLazyInit_eq]
@[simp] theorem pwmLazyInit_cy (s : State) : (pwmLazyInit s).cy = s.cy := by
  rw [pwmLazyInit_eq]
@[simp] theorem pwmLazyInit_cfgDbl (s : State) : (pwmLazyInit s).cfgDbl = s.cfgDbl := by
  rw [pwmLazyInit_eq]
@[simp] theorem pwmLazyInit_cfgZoom (s : State) : (pwmLazyInit s).cfgZoom = s.cfgZoom := by
  rw [pwmLazyInit_eq]
@[simp] theorem pwmLazyInit_dispPower (s : State) : (pwmLazyInit s).dispPower = s.dispPower := by
  rw [pwmLazyInit_eq]
@[simp] theorem pwmLazyInit_dispPolarity (s : State) : (pwmLazyInit s).dispPolarity = s.dispPolarity := by
  rw [pwmLazyInit_eq]
@[simp] theorem pwmLazyInit_trace (s : State) : (pwmLazyInit s).trace = s.trace ++ pwmStart s := by
  rw [pwmLazyInit_eq]
@[simp] theorem pwmLazyInit_commands (s : State) : (pwmLazyInit s).commands = s.commands := by
  rw [pwmLazyInit_eq]

theorem dispLazyInit_eq (s : State) :
    dispLazyInit s = { s with dispInit := true, trace := s.trace ++ dispStart s } := by
  cases s with
  | mk bank pwmInit dispInit fb cx cy cfgDbl cfgZoom dispPower dispPolarity trace commands =>
    cases dispInit <;> simp [dispLazyInit, dispStart, emit]

@[simp] theorem dispLazyInit_bank (s : State) : (dispLazyInit s).bank = s.bank := by
  rw [dispLazyInit_eq]
@[simp] theorem dispLazyInit_pwmInit (s : State) : (dispLazyInit s).pwmInit = s.pwmInit := by
  rw [dispLazyInit_eq]
@[simp] theorem dispLazyInit_dispInit (s : State) : (dispLazyInit s).dispInit = true := by
  rw [dispLazyInit_eq]
@[simp] theorem dispLazyInit_fb (s : State) : (dispLazyInit s).fb = s.fb := by
  rw [dispLazyInit_eq]
@[simp] theorem dispLazyInit_cx (s : State) : (dispLazyInit s).cx = s.cx := by
  rw [dispLazyInit_eq]
@[simp] theorem dispLazyInit_cy (s : State) : (dispLazyInit s).cy = s.cy := by
  rw [dispLazyInit_eq]
@[simp] theorem dispLazyInit_cfgDbl (s : State) : (dispLazyInit s).cfgDbl = s.cfgDbl := by
  rw [dispLazyInit_eq]
@[simp] theorem dispLazyInit_cfgZoom (s : State) : (dispLazyInit s).cfgZoom = s.cfgZoom := by
  rw [dispLazyInit_eq]
@[simp] theorem dispLazyInit_dispPower (s : State) : (dispLazyInit s).dispPower = s.dispPower := by
  rw [dispLazyInit_eq]
@[simp] theorem dispLazyInit_dispPolarity (s : State) : (dispLazyInit s).dispPolarity = s.dispPolarity := by
  rw [dispLazyInit_eq]
@[simp] theorem dispLazyInit_trace (s : State) : (dispLazyInit s).trace = s.trace ++ dispStart s := by
  rw [dispLazyInit_eq]
@[simp] theorem dispLazyInit_commands (s : State) : (dispLazyInit s).commands = s.commands := by
  rw [dispLazyInit_eq]

end Sys2Proof.Machine
end

