-- ==== Sys2Proof/Laws/Memory.lean ====
section
/-! SUPPORT. The laws of the framebuffer's memory: read after write, the canonical form kept by every operation, and
equal contents being equal data. -/

namespace Sys2Proof.Machine

/-! ### Reading after writing -/

theorem Memory.lookup_insert (m : Memory) (i j : Nat) (v : Byte) :
    (Memory.insert i v m).lookup j = if i = j then some v else m.lookup j := by
  induction m with
  | nil => simp [Memory.insert, Memory.lookup]
  | cons c m ih =>
    obtain ⟨k, w⟩ := c
    simp only [Memory.insert]
    split
    · simp [Memory.lookup]
    · split
      · subst_vars
        simp only [Memory.lookup]
        split <;> rfl
      · simp only [Memory.lookup, ih]
        split
        · rw [if_neg (by omega)]
        · rfl

theorem Memory.read?_write (m : Memory) {i : Nat} (hi : i ≠ 0) (j : Nat) (v : Byte) :
    (m.write i v).read? j = if i = j then some v else m.read? j := by
  simp only [Memory.write, Memory.unlisted, if_neg hi, reduceCtorEq, if_false, Memory.read?, Memory.lookup_insert]
  split <;> simp

/-- A payload byte reads as the value just written, every other byte as before (R54, R55). -/
theorem fbByte_fbWrite (s : State) {i : Nat} (hi : i ≠ 0) (j : Nat) (v : Byte) :
    fbByte (fbWrite i v s) j = if i = j then v else fbByte s j := by
  simp only [fbByte, fbWrite_fb, Memory.read?_write _ hi]
  split <;> simp

/-- Reading depends on the framebuffer alone. -/
theorem fbByte_of_fb {s t : State} (h : t.fb = s.fb) : fbByte t = fbByte s := by
  funext i
  simp [fbByte, h]

theorem Memory.lookup_map_range' (f : Nat → Byte) (a n i : Nat) :
    Memory.lookup ((List.range' a n).map fun i => (i, f i)) i = if a ≤ i ∧ i < a + n then some (f i) else none := by
  induction n generalizing a with
  | zero => simp [Memory.lookup]
  | succ n ih =>
    simp only [List.range'_succ, List.map_cons, Memory.lookup, ih]
    split
    · subst_vars
      simp
    · congr 1
      apply propext
      omega

theorem Memory.lookup_ofPayload (f : Nat → Byte) (i : Nat) :
    (Memory.ofPayload f).lookup i = if 1 ≤ i ∧ i < 1025 then some (f i) else none := by
  rw [Memory.ofPayload, Memory.lookup_map_range']

/-- A whole payload given at once reads as given, and its header as the tag (R158, R185). -/
theorem fbByte_ofPayload {s : State} {f : Nat → Byte} (h : s.fb = Memory.ofPayload f) :
    fbByte s 0 = 0x40 ∧ ∀ i, 1 ≤ i → i ≤ 1024 → fbByte s i = f i := by
  refine ⟨by simp [fbByte, h, Memory.read?, Memory.lookup_ofPayload, Memory.unlisted], fun i h1 h2 => ?_⟩
  simp [fbByte, h, Memory.read?, Memory.lookup_ofPayload, h1, Nat.lt_succ_of_le h2]

/-! ### The canonical form -/

theorem Memory.wf_nil : Memory.wf [] := by simp [Memory.wf]

theorem Memory.wf_tail {c : Host.Cell} {m : Memory} (h : Memory.wf (c :: m)) : Memory.wf m :=
  ⟨(List.pairwise_cons.mp h.1).2, fun d hd => h.2 d (List.mem_cons_of_mem _ hd)⟩

theorem Memory.wf_cons {c : Host.Cell} {m : Memory} :
    Memory.wf (c :: m) ↔ (∀ d ∈ m, c.1 < d.1) ∧ (c.1 ≤ 1024 ∧ Memory.unlisted c.1 ≠ some c.2) ∧ Memory.wf m := by
  simp only [Memory.wf, List.map_cons, List.pairwise_cons, List.mem_map, forall_exists_index, and_imp,
    forall_apply_eq_imp_iff₂, List.mem_cons, forall_eq_or_imp]
  tauto

theorem Memory.mem_insert {m : Memory} {i : Nat} {v : Byte} {d : Host.Cell} (h : d ∈ Memory.insert i v m) :
    d = (i, v) ∨ d ∈ m := by
  induction m with
  | nil => simpa [Memory.insert] using h
  | cons c m ih =>
    obtain ⟨k, w⟩ := c
    simp only [Memory.insert] at h
    split at h
    · simpa using h
    · split at h
      · rcases List.mem_cons.mp h with h | h
        · exact .inl h
        · exact .inr (List.mem_cons_of_mem _ h)
      · rcases List.mem_cons.mp h with h | h
        · exact .inr (h ▸ List.mem_cons_self)
        · exact (ih h).imp_right (List.mem_cons_of_mem _)

theorem Memory.mem_erase {m : Memory} {i : Nat} {d : Host.Cell} (h : d ∈ Memory.erase i m) : d ∈ m := by
  induction m with
  | nil => simp [Memory.erase] at h
  | cons c m ih =>
    obtain ⟨k, w⟩ := c
    simp only [Memory.erase] at h
    split at h
    · exact List.mem_cons_of_mem _ h
    · rcases List.mem_cons.mp h with h | h
      · exact h ▸ List.mem_cons_self
      · exact List.mem_cons_of_mem _ (ih h)

theorem Memory.wf_insert {m : Memory} (h : m.wf) {i : Nat} {v : Byte} (hi : i ≤ 1024)
    (hv : Memory.unlisted i ≠ some v) : (Memory.insert i v m).wf := by
  induction m with
  | nil => simp [Memory.insert, Memory.wf, hi, hv]
  | cons c m ih =>
    obtain ⟨k, w⟩ := c
    obtain ⟨hlt, hc, hm⟩ := Memory.wf_cons.mp h
    simp only [Memory.insert]
    split
    · refine Memory.wf_cons.mpr ⟨fun d hd => ?_, ⟨hi, hv⟩, h⟩
      rcases List.mem_cons.mp hd with rfl | hd
      · assumption
      · exact Nat.lt_trans ‹_› (hlt d hd)
    · split
      · subst_vars
        exact Memory.wf_cons.mpr ⟨hlt, ⟨hi, hv⟩, hm⟩
      · refine Memory.wf_cons.mpr ⟨fun d hd => ?_, hc, ih hm⟩
        rcases Memory.mem_insert hd with rfl | hd
        · simp only at *
          omega
        · exact hlt d hd

theorem Memory.wf_erase {m : Memory} (h : m.wf) (i : Nat) : (Memory.erase i m).wf := by
  induction m with
  | nil => exact h
  | cons c m ih =>
    obtain ⟨k, w⟩ := c
    obtain ⟨hlt, hc, hm⟩ := Memory.wf_cons.mp h
    simp only [Memory.erase]
    split
    · exact hm
    · exact Memory.wf_cons.mpr ⟨fun d hd => hlt d (Memory.mem_erase hd), hc, ih hm⟩

/-- A write inside the buffer keeps the canonical form. -/
theorem Memory.wf_write {m : Memory} (h : m.wf) {i : Nat} (hi : i ≤ 1024) (v : Byte) : (m.write i v).wf := by
  simp only [Memory.write]
  split
  · exact Memory.wf_erase h i
  · exact Memory.wf_insert h hi ‹_›

/-- A whole payload given at once is in the canonical form. -/
theorem Memory.wf_ofPayload (f : Nat → Byte) : (Memory.ofPayload f).wf := by
  refine ⟨?_, fun c hc => ?_⟩
  · have : (Memory.ofPayload f).map Prod.fst = List.range' 1 1024 := by
      simp only [Memory.ofPayload, List.map_map]
      exact List.map_id _
    rw [this]
    exact List.pairwise_lt_range'
  · obtain ⟨i, hi, rfl⟩ := List.mem_map.mp hc
    have := List.mem_range'_1.mp hi
    refine ⟨by omega, ?_⟩
    simp only [Memory.unlisted]
    rw [if_neg (by omega)]
    simp

theorem Memory.lookup_none_of_lt {m : Memory} {i : Nat} (h : ∀ d ∈ m, i < d.1) : m.lookup i = none := by
  induction m with
  | nil => rfl
  | cons c m ih =>
    obtain ⟨k, w⟩ := c
    have hk : i < k := h (k, w) List.mem_cons_self
    simp only [Memory.lookup]
    rw [if_neg (by omega)]
    exact ih fun d hd => h d (List.mem_cons_of_mem _ hd)

/-- In the canonical form an index is listed exactly with its byte, when that is not the unlisted one. -/
theorem Memory.lookup_eq_of_read? {m n : Memory} (hm : m.wf) (hn : n.wf) (h : ∀ i, m.read? i = n.read? i) (i : Nat) :
    m.lookup i = n.lookup i := by
  have listed : ∀ {m : Memory} {v}, m.wf → m.lookup i = some v → Memory.unlisted i ≠ some v := by
    intro m v hm hl
    induction m with
    | nil => simp [Memory.lookup] at hl
    | cons c m ih =>
      obtain ⟨k, w⟩ := c
      simp only [Memory.lookup] at hl
      split at hl
      · subst_vars
        cases hl
        exact (Memory.wf_cons.mp hm).2.1.2
      · exact ih (Memory.wf_tail hm) hl
  have hi := h i
  simp only [Memory.read?] at hi
  cases h1 : m.lookup i with
  | none =>
    cases h2 : n.lookup i with
    | none => rfl
    | some v => rw [h1, h2] at hi; exact absurd hi (listed hn h2)
  | some v =>
    cases h2 : n.lookup i with
    | none => rw [h1, h2] at hi; exact absurd hi.symm (listed hm h1)
    | some w => rw [h1, h2] at hi; simpa using hi

/-- Equal contents are equal data: two memories in the canonical form with the same known bytes are equal. -/
theorem Memory.ext_of_read? {m n : Memory} (hm : m.wf) (hn : n.wf) (h : ∀ i, m.read? i = n.read? i) : m = n := by
  have hl : ∀ i, m.lookup i = n.lookup i := Memory.lookup_eq_of_read? hm hn h
  clear h
  induction m generalizing n with
  | nil =>
    cases n with
    | nil => rfl
    | cons d n => have := hl d.1; simp [Memory.lookup] at this
  | cons c m ih =>
    obtain ⟨k, w⟩ := c
    obtain ⟨hk, -, hm'⟩ := Memory.wf_cons.mp hm
    cases n with
    | nil => have := hl k; simp [Memory.lookup] at this
    | cons d n =>
      obtain ⟨l, u⟩ := d
      obtain ⟨hj, -, hn'⟩ := Memory.wf_cons.mp hn
      have hkl : k = l := by
        rcases Nat.lt_trichotomy k l with hlt | heq | hgt
        · have := hl k
          rw [Memory.lookup, if_pos rfl, Memory.lookup_none_of_lt (m := (l, u) :: n)] at this
          · cases this
          · intro d hd
            rcases List.mem_cons.mp hd with rfl | hd
            · exact hlt
            · exact Nat.lt_trans hlt (hj d hd)
        · exact heq
        · have := hl l
          rw [Memory.lookup_none_of_lt (m := (k, w) :: m), Memory.lookup, if_pos rfl] at this
          · cases this
          · intro d hd
            rcases List.mem_cons.mp hd with rfl | hd
            · exact hgt
            · exact Nat.lt_trans hgt (hk d hd)
      subst hkl
      have hw := hl k
      simp only [Memory.lookup, if_true, Option.some.injEq] at hw
      subst hw
      rw [ih hm' hn']
      intro i
      by_cases hi : k = i
      · subst hi
        rw [Memory.lookup_none_of_lt fun d hd => hk d hd, Memory.lookup_none_of_lt fun d hd => hj d hd]
      · have := hl i
        simpa [Memory.lookup, hi] using this

end Sys2Proof.Machine
end

