-- ==== Sys2Proof/Laws/Ops.lean ====
section
/-! SUPPORT. What each shared operation does, said once: channel writes, pixels, lines, blocks of pixels,
byte runs, the scroll and the cursor. -/

namespace Sys2Proof.Machine
open Sys2Proof.Config

/-! ### The channel bank -/

theorem channel_writeCh (ch : Fin 16) (on off : Tick) (s : State) (c : Fin 16) :
    channel (writeCh ch on off s) c = if c = ch then ⟨on, off⟩ else channel s c := by
  simp only [channel, writeCh_bank, Vector.get_eq_getElem, Vector.getElem_set, Fin.ext_iff]
  split <;> split <;> first | rfl | omega

/-- The bank alone decides what a channel holds. -/
theorem channel_of_bank {s t : State} (h : t.bank = s.bank) : channel t = channel s := by
  funext c
  simp [channel, h]

/-- `SetCh` on a channel that exists writes it; on any other it does nothing (R52). -/
theorem setCh_of_lt {ch : Nat} (h : ch < 16) (on off : Nat) (s : State) :
    setCh ch on off s = writeCh ⟨ch, h⟩ (BitVec.ofNat 12 on) (BitVec.ofNat 12 off) s := by
  simp [setCh, h]

theorem setCh_of_not_lt {ch : Nat} (h : ¬ ch < 16) (on off : Nat) (s : State) : setCh ch on off s = s := by
  simp [setCh, h]

theorem pp_lt (m : Motor) : pp m < 16 := by cases m <;> decide

theorem pn_lt (m : Motor) : pn m < 16 := by cases m <;> decide

/-- `Act` is the positive channel's write and then the negative channel's (R118). -/
theorem act_eq (m : Motor) (action : Action) (t : Nat) (s : State) :
    act m action t s =
      writeCh ⟨pn m, pn_lt m⟩ 0 (BitVec.ofNat 12 (negTicks action t))
        (writeCh ⟨pp m, pp_lt m⟩ 0 (BitVec.ofNat 12 (posTicks action t)) s) := by
  simp [act, setCh_of_lt (pn_lt m), setCh_of_lt (pp_lt m)]

theorem posTicks_ofNat (action : Action) (t : Nat) :
    BitVec.ofNat 12 (posTicks action t) = if action = .P then BitVec.ofNat 12 t else 0 := by
  cases action <;> simp [posTicks]

theorem negTicks_ofNat (action : Action) (t : Nat) :
    BitVec.ofNat 12 (negTicks action t) = if action = .N then BitVec.ofNat 12 t else 0 := by
  cases action <;> simp [negTicks]

/-- Four `Act`s are the eight writes of `routed`, in its order (R120, R122, R124). -/
theorem actAll_eq (action : Motor → Action) (t : Nat) (s : State) :
    actAll action t s = (routed action (BitVec.ofNat 12 t)).foldl (fun s w => writeCh w.1 0 w.2 s) s := by
  simp only [actAll, allMotors, List.foldl_cons, List.foldl_nil, routed, act_eq, posTicks_ofNat, negTicks_ofNat]
  rfl

/-- Writes to a list of channels change the bank and the trace alone, and add their events in order. -/
theorem writes_eq (ws : List (Fin 16 × Tick)) (s : State) :
    ws.foldl (fun s w => writeCh w.1 0 w.2 s) s =
      { s with bank := (ws.foldl (fun s w => writeCh w.1 0 w.2 s) s).bank
               trace := s.trace ++ ws.map fun w => .pwmSet w.1 0 w.2 } := by
  induction ws generalizing s with
  | nil => simp
  | cons w ws ih =>
    rw [List.foldl_cons, ih]
    simp [writeCh, emit, List.append_assoc]

/-- The speed scaled, as the unsigned commands use it, is the duty (R111, R120). -/
theorem scale_ofNat (speed : Nat) : (scale speed).toNat = min (16 * speed) 4095 := by
  simp only [scale, clamp, speedScale, tickMax]
  split
  · omega
  · split <;> omega

/-! ### Pixels -/

theorem getLsbD_putBit (b : Byte) {n k : Nat} (hn : n < 8) (hk : k < 8) (v : Bool) :
    (putBit b n v).getLsbD k = if k = n then v else b.getLsbD k := by
  simp only [putBit]
  have hone : (1#8 <<< n).getLsbD k = decide (k = n) := by
    have : ∀ n < 8, ∀ k < 8, (1#8 <<< n).getLsbD k = decide (k = n) := by decide
    exact this n hn k hk
  split
  · rw [BitVec.getLsbD_or, hone]
    split <;> simp_all
  · rw [BitVec.getLsbD_and, BitVec.getLsbD_not, hone]
    split <;> simp_all

theorem fbIndex_ne_zero (x page : Nat) : fbIndex x page ≠ 0 := by simp [fbIndex]

/-- A pixel write touches no byte but the pixel's (R57). -/
theorem fbByte_plot_of_ne (x y : Nat) (v : Bool) (s : State) {i : Nat} (h : i ≠ fbIndex x (y / 8)) :
    fbByte (plot x y v s) i = fbByte s i := by
  simp only [plot]
  split
  · rw [fbByte_fbWrite _ (fbIndex_ne_zero _ _), if_neg (Ne.symm h)]
  · rfl

/-- A pixel write inside the picture gives its byte the one bit (R57). -/
theorem fbByte_plot_self {x y : Nat} (hx : x < 128) (hy : y < 64) (v : Bool) (s : State) :
    fbByte (plot x y v s) (fbIndex x (y / 8)) = putBit (fbByte s (fbIndex x (y / 8))) (y % 8) v := by
  simp only [plot, fbW, fbH]
  rw [if_pos ⟨hx, hy⟩, fbByte_fbWrite _ (fbIndex_ne_zero _ _), if_pos rfl]

/-- A pixel write gives that pixel its value and leaves every other pixel of the picture alone; outside the
picture it does nothing (R57, R180). -/
theorem pixel_plot (x y : Nat) (v : Bool) (s : State) {x' y' : Nat} (hx' : x' < 128) (hy' : y' < 64) :
    pixel (plot x y v s) x' y' = if x' = x ∧ y' = y then v else pixel s x' y' := by
  by_cases hin : x < 128 ∧ y < 64
  · simp only [pixel]
    by_cases hi : fbIndex x' (y' / 8) = fbIndex x (y / 8)
    · have hxy : x' = x ∧ y' / 8 = y / 8 := by
        simp only [fbIndex, fbW] at hi
        omega
      obtain ⟨rfl, hp⟩ := hxy
      rw [hp, fbByte_plot_self hin.1 hin.2, getLsbD_putBit _ (by omega) (by omega)]
      by_cases hy : y' % 8 = y % 8
      · rw [if_pos hy, if_pos ⟨rfl, by omega⟩]
      · rw [if_neg hy, if_neg]
        rintro ⟨-, rfl⟩
        exact hy rfl
    · rw [fbByte_plot_of_ne _ _ _ _ hi, if_neg]
      rintro ⟨rfl, rfl⟩
      exact hi rfl
  · rw [if_neg (by rintro ⟨rfl, rfl⟩; exact hin ⟨hx', hy'⟩)]
    simp only [plot, fbW, fbH]
    rw [if_neg hin]

/-- `t` differs from `s` in the payload of the framebuffer at most: every other field is the same, the header and whatever
lies past the buffer read as before. -/
def OnlyPayload (s t : State) : Prop :=
  t = { s with fb := t.fb } ∧ ∀ i, i = 0 ∨ 1024 < i → fbByte t i = fbByte s i

theorem OnlyPayload.refl (s : State) : OnlyPayload s s := ⟨rfl, fun _ _ => rfl⟩

theorem OnlyPayload.trans {s t u : State} (h : OnlyPayload s t) (k : OnlyPayload t u) : OnlyPayload s u := by
  refine ⟨?_, fun i hi => (k.2 i hi).trans (h.2 i hi)⟩
  rw [k.1, h.1]

/-- A loop whose every round changes the payload at most changes it at most. -/
theorem OnlyPayload.foldl {α : Type} {f : State → α → State} (h : ∀ s a, OnlyPayload s (f s a)) (l : List α)
    (s : State) : OnlyPayload s (l.foldl f s) := by
  induction l generalizing s with
  | nil => exact .refl s
  | cons a l ih => exact (h s a).trans (ih _)

theorem OnlyPayload.fbWrite (s : State) {i : Nat} (h : 1 ≤ i) (h' : i ≤ 1024) (v : Byte) :
    OnlyPayload s (fbWrite i v s) :=
  ⟨rfl, fun j hj => by rw [fbByte_fbWrite _ (by omega), if_neg (by omega)]⟩

theorem OnlyPayload.plot (x y : Nat) (v : Bool) (s : State) : OnlyPayload s (plot x y v s) := by
  simp only [Machine.plot, fbW, fbH]
  split
  · exact .fbWrite s (by simp only [fbIndex, fbW]; omega) (by simp only [fbIndex, fbW]; omega) _
  · exact .refl s

/-- A horizontal run of pixels, clipped (R180). -/
theorem pixel_hLineBody (x y len : Nat) (v : Bool) (s : State) {x' y' : Nat} (hx' : x' < 128) (hy' : y' < 64) :
    pixel (hLineBody x y len v s) x' y' = if y' = y ∧ x ≤ x' ∧ x' < x + len then v else pixel s x' y' := by
  simp only [hLineBody]
  induction len generalizing x s with
  | zero => simp
  | succ len ih =>
    rw [List.range'_succ, List.foldl_cons, ih, pixel_plot _ _ _ _ hx' hy']
    split
    · rw [if_pos (by omega)]
    · split
      · rw [if_pos (by omega)]
      · rw [if_neg (by omega)]

/-- A vertical run of pixels, clipped (R182). -/
theorem pixel_vLineBody (x y len : Nat) (v : Bool) (s : State) {x' y' : Nat} (hx' : x' < 128) (hy' : y' < 64) :
    pixel (vLineBody x y len v s) x' y' = if x' = x ∧ y ≤ y' ∧ y' < y + len then v else pixel s x' y' := by
  simp only [vLineBody]
  induction len generalizing y s with
  | zero => simp
  | succ len ih =>
    rw [List.range'_succ, List.foldl_cons, ih, pixel_plot _ _ _ _ hx' hy']
    split
    · rw [if_pos (by omega)]
    · split
      · rw [if_pos (by omega)]
      · rw [if_neg (by omega)]

theorem OnlyPayload.hLineBody (x y len : Nat) (v : Bool) (s : State) : OnlyPayload s (hLineBody x y len v s) :=
  .foldl (fun s i => .plot i y v s) _ s

theorem OnlyPayload.vLineBody (x y len : Nat) (v : Bool) (s : State) : OnlyPayload s (vLineBody x y len v s) :=
  .foldl (fun s j => .plot x j v s) _ s

/-- The outline of a rectangle and nothing else (R184). -/
theorem pixel_rectEdges {xa ya xb yb : Nat} (hx : xa ≤ xb) (hy : ya ≤ yb) (v : Bool) (s : State) {x y : Nat}
    (hx' : x < 128) (hy' : y < 64) :
    pixel (rectEdges xa ya xb yb v s) x y =
      if xa ≤ x ∧ x ≤ xb ∧ ya ≤ y ∧ y ≤ yb ∧ (x = xa ∨ x = xb ∨ y = ya ∨ y = yb) then v else pixel s x y := by
  simp only [rectEdges, pixel_vLineBody _ _ _ _ _ hx' hy', pixel_hLineBody _ _ _ _ _ hx' hy']
  split
  · rw [if_pos (by omega)]
  · split
    · rw [if_pos (by omega)]
    · split
      · rw [if_pos (by omega)]
      · split
        · rw [if_pos (by omega)]
        · rw [if_neg (by omega)]

theorem OnlyPayload.rectEdges (xa ya xb yb : Nat) (v : Bool) (s : State) :
    OnlyPayload s (rectEdges xa ya xb yb v s) :=
  (((OnlyPayload.hLineBody xa ya (xb - xa + 1) v s).trans (.hLineBody xa yb (xb - xa + 1) v _)).trans
    (.vLineBody xa ya (yb - ya + 1) v _)).trans (.vLineBody xb ya (yb - ya + 1) v _)

/-! ### Glyphs -/

/-- A 2×2 block of one value (R155). -/
theorem pixel_plotBlock (x y : Nat) (v : Bool) (s : State) {x' y' : Nat} (hx' : x' < 128) (hy' : y' < 64) :
    pixel (plotBlock x y v s) x' y' =
      if x ≤ x' ∧ x' < x + 2 ∧ y ≤ y' ∧ y' < y + 2 then v else pixel s x' y' := by
  simp only [plotBlock, pixel_plot _ _ _ _ hx' hy']
  split
  · rw [if_pos (by omega)]
  · split
    · rw [if_pos (by omega)]
    · split
      · rw [if_pos (by omega)]
      · split
        · rw [if_pos (by omega)]
        · rw [if_neg (by omega)]

theorem OnlyPayload.plotBlock (x y : Nat) (v : Bool) (s : State) : OnlyPayload s (plotBlock x y v s) :=
  (((OnlyPayload.plot x y v s).trans (.plot (x + 1) y v _)).trans (.plot x (y + 1) v _)).trans
    (.plot (x + 1) (y + 1) v _)

/-- A column of `n` blocks, each with its own value (R155). -/
theorem pixel_blockColumn (x y n : Nat) (f : Nat → Bool) (s : State) {x' y' : Nat} (hx' : x' < 128) (hy' : y' < 64) :
    pixel ((List.range n).foldl (fun s j => plotBlock x (y + 2 * j) (f j) s) s) x' y' =
      if x ≤ x' ∧ x' < x + 2 ∧ y ≤ y' ∧ y' < y + 2 * n then f ((y' - y) / 2) else pixel s x' y' := by
  induction n with
  | zero =>
    rw [if_neg (by omega)]
    rfl
  | succ n ih =>
    rw [List.range_succ, List.foldl_append, List.foldl_cons, List.foldl_nil, pixel_plotBlock _ _ _ _ hx' hy', ih]
    split
    · rw [if_pos (by omega), show (y' - y) / 2 = n by omega]
    · split
      · rw [if_pos (by omega)]
      · rw [if_neg (by omega)]

/-- `n` columns of blocks, each block with its own value (R155). -/
theorem pixel_blockGrid (x y : Nat) (f : Fin 5 → Nat → Bool) (s : State) {x' y' : Nat} (hx' : x' < 128)
    (hy' : y' < 64) :
    pixel (glyphColumns.foldl (fun s (i : Fin 5) =>
        (List.range 8).foldl (fun s j => plotBlock (x + 2 * i) (y + 2 * j) (f i j) s) s) s) x' y' =
      if x ≤ x' ∧ x' < x + 10 ∧ y ≤ y' ∧ y' < y + 16 then f (Fin.ofNat 5 ((x' - x) / 2)) ((y' - y) / 2)
      else pixel s x' y' := by
  have hof : ∀ (k : Fin 5), (x' - x) / 2 = k.val → Fin.ofNat 5 ((x' - x) / 2) = k := by
    intro k hk
    rw [hk]
    exact Fin.ext (Nat.mod_eq_of_lt k.isLt)
  simp only [glyphColumns, List.foldl_cons, List.foldl_nil, pixel_blockColumn _ _ _ _ _ hx' hy']
  simp only [Fin.isValue, Fin.coe_ofNat_eq_mod]
  split
  · rw [if_pos (by omega), hof 4 (by simp; omega)]
  · split
    · rw [if_pos (by omega), hof 3 (by simp; omega)]
    · split
      · rw [if_pos (by omega), hof 2 (by simp; omega)]
      · split
        · rw [if_pos (by omega), hof 1 (by simp; omega)]
        · split
          · rw [if_pos (by omega), hof 0 (by simp; omega)]
          · rw [if_neg (by omega)]

/-- Bytes at consecutive indices (R154). -/
theorem fbByte_fbWriteList (i : Nat) (hi : i ≠ 0) (vs : List Byte) (s : State) (j : Nat) :
    fbByte (fbWriteList i vs s) j = if i ≤ j ∧ j < i + vs.length then vs[j - i]?.getD 0 else fbByte s j := by
  induction vs generalizing i s with
  | nil =>
    rw [if_neg (by simp)]
    rfl
  | cons v vs ih =>
    rw [fbWriteList, ih (i + 1) (by omega), fbByte_fbWrite _ hi]
    by_cases h1 : i + 1 ≤ j ∧ j < i + 1 + vs.length
    · rw [if_pos h1, if_pos (by simp; omega), show j - i = (j - (i + 1)) + 1 by omega]
      simp
    · rw [if_neg h1]
      by_cases h2 : i = j
      · subst h2
        simp
      · rw [if_neg h2, if_neg (by simp; omega)]

theorem OnlyPayload.fbWriteList {i : Nat} (hi : 1 ≤ i) (vs : List Byte) (h : i + vs.length ≤ 1025) (s : State) :
    OnlyPayload s (fbWriteList i vs s) := by
  induction vs generalizing i s with
  | nil => exact .refl s
  | cons v vs ih =>
    simp only [List.length_cons] at h
    exact (OnlyPayload.fbWrite s hi (by omega) v).trans (ih (by omega) (by omega) _)

theorem length_glyphCell (R : Roms) (ch : Nat) (q : Bool) : (glyphCell R ch q).length = 6 := rfl

/-! ### The canonical form under the pixel and glyph operations -/

theorem wf_fbWrite {s : State} (h : s.fb.wf) {i : Nat} (hi : i ≤ 1024) (v : Byte) : (fbWrite i v s).fb.wf :=
  Memory.wf_write h hi v

theorem wf_plot {s : State} (h : s.fb.wf) (x y : Nat) (v : Bool) : (plot x y v s).fb.wf := by
  simp only [plot, fbW, fbH]
  split
  · exact wf_fbWrite h (by simp only [fbIndex, fbW]; omega) _
  · exact h

theorem wf_foldl {α : Type} {f : State → α → State} (hf : ∀ s a, s.fb.wf → (f s a).fb.wf) (l : List α) {s : State}
    (h : s.fb.wf) : (l.foldl f s).fb.wf := by
  induction l generalizing s with
  | nil => exact h
  | cons a l ih => exact ih (hf s a h)

theorem wf_hLineBody {s : State} (h : s.fb.wf) (x y len : Nat) (v : Bool) : (hLineBody x y len v s).fb.wf :=
  wf_foldl (fun _ _ h => wf_plot h _ _ _) _ h

theorem wf_vLineBody {s : State} (h : s.fb.wf) (x y len : Nat) (v : Bool) : (vLineBody x y len v s).fb.wf :=
  wf_foldl (fun _ _ h => wf_plot h _ _ _) _ h

theorem wf_rectEdges {s : State} (h : s.fb.wf) (xa ya xb yb : Nat) (v : Bool) : (rectEdges xa ya xb yb v s).fb.wf :=
  wf_vLineBody (wf_vLineBody (wf_hLineBody (wf_hLineBody h _ _ _ _) _ _ _ _) _ _ _ _) _ _ _ _

theorem wf_plotBlock {s : State} (h : s.fb.wf) (x y : Nat) (v : Bool) : (plotBlock x y v s).fb.wf :=
  wf_plot (wf_plot (wf_plot (wf_plot h _ _ _) _ _ _) _ _ _) _ _ _

theorem wf_fbWriteList {s : State} (h : s.fb.wf) {i : Nat} (vs : List Byte) (hi : i + vs.length ≤ 1025) :
    (fbWriteList i vs s).fb.wf := by
  induction vs generalizing i s with
  | nil => exact h
  | cons v vs ih =>
    simp only [List.length_cons] at hi
    exact ih (wf_fbWrite h (by omega) v) (by omega)

/-! ### Sequencing -/

/-- If a sequence goes on, its first part did and its second part did from there. -/
theorem andThen_next {o : Outcome} {f : State → Outcome} {t : State} (h : andThen o f = .next t) :
    ∃ s, o = .next s ∧ f s = .next t := by
  cases o with
  | next s => exact ⟨s, rfl, h⟩
  | fault r => cases h
  | refused r => cases h

@[simp] theorem andThen_of_next (s : State) (f : State → Outcome) : andThen (.next s) f = f s := rfl

/-- A pixel write of a command goes on exactly inside the picture (R56, R57). -/
theorem setPixel_next {x y : Nat} {v : Bool} {s t : State} (h : setPixel x y v s = .next t) :
    x ≤ 127 ∧ y ≤ 63 ∧ t = plot x y v s := by
  simp only [setPixel] at h
  split at h
  · cases h
  · exact ⟨by omega, by omega, by injection h with h; exact h.symm⟩

end Sys2Proof.Machine
end

