-- ==== Sys2Proof/Laws/Exec.lean ====
section
/-! SUPPORT. What the commands that can stop do when they go on, and the shape every command leaves: the inversion
lemmas the whole-machine statements are derived from. -/

namespace Sys2Proof.Machine
open Sys2Proof.Config

/-! ### Reading after an operation that leaves the framebuffer alone -/

@[simp] theorem fbByte_emit (e : Event) (s : State) : fbByte (emit e s) = fbByte s := fbByte_of_fb rfl

@[simp] theorem fbByte_dispLazyInit (s : State) : fbByte (dispLazyInit s) = fbByte s := fbByte_of_fb (by simp)

@[simp] theorem fbByte_streamAt (col page n : Nat) (s : State) : fbByte (streamAt col page n s) = fbByte s :=
  fbByte_of_fb rfl

@[simp] theorem fbByte_flushAll (s : State) : fbByte (flushAll s) = fbByte s := fbByte_of_fb rfl

theorem pixel_of_fbByte {s t : State} (h : fbByte t = fbByte s) : pixel t = pixel s := by
  funext x y
  simp [pixel, h]

/-! ### A renderer command that draws -/

/-- After the lazy initialisation and a change of the payload, everything else is as the initialisation left it. -/
theorem OnlyPayload.after_init {s u : State} (h : OnlyPayload (dispLazyInit s) u) :
    u = { s with fb := u.fb, dispInit := true, trace := s.trace ++ dispStart s } := by
  have := h.1
  rwa [dispLazyInit_eq] at this

/-- The same when an event follows the drawing. -/
theorem OnlyPayload.emit_after_init {s u : State} (h : OnlyPayload (dispLazyInit s) u) (e : Event) :
    emit e u = { s with fb := u.fb, dispInit := true, trace := s.trace ++ dispStart s ++ [e] } := by
  have := h.after_init
  generalize u.fb = m at this
  subst this
  rfl

/-! ### The commands that can stop -/

/-- The 160 pixels of a double-size glyph (R155). -/
def doubleGlyph (R : Roms) (ch col row : Nat) (q : Bool) (s : State) : State :=
  glyphColumns.foldl (fun s (i : Fin 5) =>
    (List.range 8).foldl (fun s j =>
      plotBlock (col + 2 * i) (row * 8 + 2 * j) ((glyphByte R ch i).getLsbD j ^^ !q) s) s) s

/-- The six bytes of a single-size glyph (R154). -/
def singleGlyph (R : Roms) (ch col row : Nat) (q : Bool) (s : State) : State :=
  fbWriteList (fbIndex col row) (glyphCell R ch q) s

theorem OnlyPayload.doubleGlyph (R : Roms) (ch col row : Nat) (q : Bool) (s : State) :
    OnlyPayload s (doubleGlyph R ch col row q s) :=
  .foldl (fun _ _ => .foldl (fun _ _ => .plotBlock _ _ _ _) _ _) _ _

theorem OnlyPayload.singleGlyph (R : Roms) (ch : Nat) {col row : Nat} (q : Bool) (s : State) (hr : row ≤ 7)
    (hc : col ≤ 122) : OnlyPayload s (singleGlyph R ch col row q s) :=
  .fbWriteList (by simp only [fbIndex]; omega) _ (by simp only [fbIndex, fbW, length_glyphCell]; omega) _

theorem wf_doubleGlyph {s : State} (h : s.fb.wf) (R : Roms) (ch col row : Nat) (q : Bool) :
    (doubleGlyph R ch col row q s).fb.wf :=
  wf_foldl (fun _ _ h => wf_foldl (fun _ _ h => wf_plotBlock h _ _ _) _ h) _ h

theorem wf_singleGlyph {s : State} (h : s.fb.wf) (R : Roms) (ch : Nat) {col row : Nat} (q : Bool) (hr : row ≤ 7)
    (hc : col ≤ 122) : (singleGlyph R ch col row q s).fb.wf :=
  wf_fbWriteList h _ (by simp only [fbIndex, fbW, length_glyphCell]; omega)

/-- What drawing a glyph does: single-size inside its page, double-size inside the picture, a fault outside, a
refusal with the zoom flag (R153 to R155, R200). -/
theorem drawChar_eq (R : Roms) (ch col row : Nat) (q : Bool) (s : State) :
    drawChar R ch col row q s =
      if s.cfgZoom then .refused .zoomConfigured
      else if s.cfgDbl then
        if row > 6 ∨ col > 118 then .fault .fbOob else .next (doubleGlyph R ch col row q s)
      else
        if row > 7 ∨ col > 122 then .fault .fbOob
        else .next (streamAt col row 6 (singleGlyph R ch col row q s)) := rfl

/-- A glyph drawn is one of two: single-size and streamed, or double-size without an event. -/
theorem drawChar_next {R : Roms} {ch col row : Nat} {q : Bool} {s t : State} (h : drawChar R ch col row q s = .next t) :
    s.cfgZoom = false ∧
    ((s.cfgDbl = false ∧ row ≤ 7 ∧ col ≤ 122 ∧ t = streamAt col row 6 (singleGlyph R ch col row q s)) ∨
      (s.cfgDbl = true ∧ row ≤ 6 ∧ col ≤ 118 ∧ t = doubleGlyph R ch col row q s)) := by
  rw [drawChar_eq] at h
  cases hz : s.cfgZoom <;> cases hd : s.cfgDbl <;> simp only [hz, hd, if_true, if_false, Bool.false_eq_true] at h
  · split at h
    · cases h
    · injection h with h
      exact ⟨rfl, .inl ⟨rfl, by omega, by omega, h.symm⟩⟩
  · split at h
    · cases h
    · injection h with h
      exact ⟨rfl, .inr ⟨rfl, by omega, by omega, h.symm⟩⟩
  · cases h
  · cases h

/-- SETPX that goes on set a pixel of the picture and streamed its byte. -/
theorem execSetpx_next {colour : Bool} {x y : Nat} {s t : State} (h : execSetpx colour x y s = .next t) :
    x ≤ 127 ∧ y ≤ 63 ∧ t = streamAt x (y / 8) 1 (plot x y colour (dispLazyInit s)) := by
  obtain ⟨u, hu, ht⟩ := andThen_next h
  obtain ⟨hx, hy, rfl⟩ := setPixel_next hu
  injection ht with ht
  exact ⟨hx, hy, ht.symm⟩

/-- DRAWCH that goes on drew one of the two glyphs after the lazy initialisation. -/
theorem execDrawch_next {colour : Bool} {ch col row : Nat} {s t : State}
    (h : execDrawch colour ch col row s = .next t) :
    s.cfgZoom = false ∧
    ((s.cfgDbl = false ∧ row ≤ 7 ∧ col ≤ 122 ∧
        t = streamAt col row 6 (singleGlyph Config.roms ch col row colour (dispLazyInit s))) ∨
      (s.cfgDbl = true ∧ row ≤ 6 ∧ col ≤ 118 ∧
        t = doubleGlyph Config.roms ch col row colour (dispLazyInit s))) := by
  simpa using drawChar_next h

/-- PRINTCH that goes on drew as DRAWCH does at the cursor and then advanced the cursor. -/
theorem execPrintch_next {colour : Bool} {ch : Nat} {s t : State} (h : execPrintch colour ch s = .next t) :
    ∃ d, execDrawch colour ch s.cx.toNat s.cy.toNat s = .next d ∧ t = advanceCursor d := by
  obtain ⟨d, hd, ht⟩ := andThen_next h
  injection ht with ht
  exact ⟨d, by simpa [execDrawch] using hd, ht.symm⟩

/-! ### The cursor -/

/-- The two things a new row can be: a move down, or a scroll and a flush (R157). -/
theorem newLine_eq (s : State) :
    newLine s = if s.cy.toNat + 1 > 7 then flushAll (scroll { s with cx := 0, cy := 7 })
      else { s with cx := 0, cy := BitVec.ofNat 4 (s.cy.toNat + 1) } := rfl

/-- A scroll leaves everything but the framebuffer, whose header is the tag (R158). -/
theorem fbByte_scroll (s : State) :
    fbByte (scroll s) 0 = 0x40 ∧
      ∀ i, 1 ≤ i → i ≤ 1024 → fbByte (scroll s) i = if i ≤ 896 then fbByte s (i + 128) else 0x00 :=
  fbByte_ofPayload (scroll_fb s)

/-- A blanked framebuffer (R185). -/
theorem fbByte_clearFb (s : State) :
    fbByte (clearFb s) 0 = 0x40 ∧ ∀ i, 1 ≤ i → i ≤ 1024 → fbByte (clearFb s) i = 0x00 :=
  fbByte_ofPayload (clearFb_fb s)

theorem wf_scroll (s : State) : (scroll s).fb.wf := Memory.wf_ofPayload _

theorem wf_clearFb (s : State) : (clearFb s).fb.wf := Memory.wf_ofPayload _

/-! ### The image a flush sends -/

theorem length_image (s : State) : (image s).length = 1025 := by rw [image, List.length_map, List.length_range]

/-- The image begins with the header (R59). -/
theorem head_image (s : State) : (image s).head? = some (fbByte s 0) := by
  have : image s = fbByte s 0 :: (List.range' 1 1024).map (fbByte s) := by
    simp only [image, fbBytes, List.range_eq_range']
    rw [List.range'_succ, List.map_cons]
  rw [this, List.head?_cons]

/-- States whose bytes agree send the same image. -/
theorem image_of_fbByte {s t : State} (h : fbByte t = fbByte s) : image t = image s :=
  congrArg (fun f => (List.range fbBytes).map f) h

/-! ### The display's picture (R72) -/

theorem picture_append (tr es : List Event) : picture (tr ++ es) = es.foldl showEvent (picture tr) := List.foldl_append

/-- After a flush the display shows the framebuffer, whatever it showed before (R241). -/
theorem picture_flushAll (s : State) : picture (flushAll s).trace = some (image (flushAll s)) := by
  rw [image_of_fbByte (fbByte_flushAll s), flushAll_trace, picture_append]
  rfl

/-- A stream of every byte that differs, inside one page, brings a display that showed the framebuffer up to date
(R60, R72). -/
theorem picture_streamAt {s u : State} {col page n : Nat} (hp : picture s.trace = some (image s))
    (ht : u.trace = s.trace) (hc : col + n ≤ 128) (hr : page ≤ 7)
    (hb : ∀ i, i < fbIndex col page ∨ fbIndex col page + n ≤ i → fbByte u i = fbByte s i) :
    picture (streamAt col page n u).trace = some (image (streamAt col page n u)) := by
  rw [image_of_fbByte (fbByte_streamAt col page n u), streamAt_trace, picture_append, ht, hp]
  simp only [List.foldl_cons, List.foldl_nil, showEvent, List.length_map, List.length_range', hc, if_true, Option.map_some]
  refine congrArg some ?_
  have hlen : fbIndex col page + n ≤ 1025 := by simp only [fbIndex, fbW]; omega
  generalize fbIndex col page = i at *
  have hm : min i 1025 = i := by omega
  apply List.ext_getElem
  · simp only [splice, image, List.length_append, List.length_take, List.length_drop, List.length_map, List.length_range,
      List.length_range', fbBytes]
    omega
  · intro k _ hk
    rw [length_image] at hk
    simp only [splice, image, List.getElem_append, List.length_append, List.length_take, List.length_map,
      List.length_range, List.length_range', List.getElem_take, List.getElem_map, List.getElem_range, List.getElem_drop,
      List.getElem_range', fbBytes, hm]
    split
    · split
      · exact (hb _ (by omega)).symm
      · congr 1; omega
    · rw [hb k (by omega)]; congr 1; omega

/-! ### Everything a router command can do -/

/-- Writes to a list of channels. -/
def writeAll (ws : List (Fin 16 × TickPair)) (s : State) : State :=
  ws.foldl (fun s w => writeCh w.1 w.2.on w.2.off s) s

theorem writeAll_eq (ws : List (Fin 16 × TickPair)) (s : State) :
    writeAll ws s = { s with
      bank := ws.foldl (fun b w => b.set w.1 w.2) s.bank
      trace := s.trace ++ ws.map fun w => .pwmSet w.1 w.2.on w.2.off } := by
  induction ws generalizing s with
  | nil => simp [writeAll]
  | cons w ws ih =>
    have h : writeAll (w :: ws) s = writeAll ws (writeCh w.1 w.2.on w.2.off s) := rfl
    rw [h, ih]
    simp [writeCh, emit]

theorem setCh_writeAll (ch on off : Nat) : ∃ ws, ∀ s, setCh ch on off s = writeAll ws s := by
  by_cases h : ch < 16
  · exact ⟨[(⟨ch, h⟩, ⟨_, _⟩)], fun s => setCh_of_lt h on off s⟩
  · exact ⟨[], fun s => setCh_of_not_lt h on off s⟩

theorem writeAll_append (ws vs : List (Fin 16 × TickPair)) (s : State) :
    writeAll (ws ++ vs) s = writeAll vs (writeAll ws s) := List.foldl_append

theorem act_writeAll (m : Motor) (action : Action) (t : Nat) : ∃ ws, ∀ s, act m action t s = writeAll ws s := by
  obtain ⟨ws, hw⟩ := setCh_writeAll (pp m) 0 (posTicks action t)
  obtain ⟨vs, hv⟩ := setCh_writeAll (pn m) 0 (negTicks action t)
  exact ⟨ws ++ vs, fun s => by rw [act, hw, hv, writeAll_append]⟩

theorem actAll_writeAll (action : Motor → Action) (t : Nat) : ∃ ws, ∀ s, actAll action t s = writeAll ws s :=
  ⟨(routed action (BitVec.ofNat 12 t)).map fun w => (w.1, ⟨0, w.2⟩), fun s => by
    rw [actAll_eq, writeAll, List.foldl_map]⟩

theorem driveMotor_writeAll (m : Motor) (q : Bool) (speed : Nat) : ∃ ws, ∀ s, driveMotor m q speed s = writeAll ws s := by
  simp only [driveMotor]
  split
  · obtain ⟨ws, hw⟩ := setCh_writeAll (pp m) 0 (scale (speed * dv m q)).toNat
    obtain ⟨vs, hv⟩ := setCh_writeAll (pn m) 0 0
    exact ⟨ws ++ vs, fun s => by rw [hw, hv, writeAll_append]⟩
  · obtain ⟨ws, hw⟩ := setCh_writeAll (pp m) 0 0
    obtain ⟨vs, hv⟩ := setCh_writeAll (pn m) 0 (-scale (speed * dv m q)).toNat
    exact ⟨ws ++ vs, fun s => by rw [hw, hv, writeAll_append]⟩

/-- A router command goes on, and is the lazy initialisation and then a list of channel writes that does not depend
on the state (R21, R50, R110). -/
theorem exec_router {i : Instr} (hi : isRouter i = true) :
    ∃ ws, ∀ s, exec i s = .next (writeAll ws (pwmLazyInit s)) := by
  cases i with
  | drvm dir motor speed =>
    simp only [exec, execDrvm]
    cases motorOf motor with
    | none => exact ⟨[], fun _ => rfl⟩
    | some m =>
      obtain ⟨ws, h⟩ := driveMotor_writeAll m dir speed
      exact ⟨ws, fun s => by rw [← h]⟩
  | mec code speed =>
    simp only [exec, execMec, driveMecanum]
    cases mecDirOf code with
    | none => exact ⟨[], fun _ => rfl⟩
    | some d =>
      obtain ⟨ws, h⟩ := actAll_writeAll (mecRom Config.roms d) (scale speed).toNat
      exact ⟨ws, fun s => by rw [← h]⟩
  | nrm code speed =>
    simp only [exec, execNrm, driveNormal]
    cases nrmDirOf code with
    | none => exact ⟨[], fun _ => rfl⟩
    | some d =>
      obtain ⟨ws, h⟩ := actAll_writeAll (fun m => driveAction (Config.roms.nrm d m)) (scale speed).toNat
      exact ⟨ws, fun s => by rw [← h]⟩
  | stpm motor =>
    simp only [exec, execStpm]
    cases motorOf motor with
    | none => exact ⟨[], fun _ => rfl⟩
    | some m =>
      obtain ⟨ws, h⟩ := act_writeAll m .Z 0
      exact ⟨ws, fun s => by rw [← h]⟩
  | stpa =>
    obtain ⟨ws, h⟩ := actAll_writeAll (fun _ => .Z) 0
    exact ⟨ws, fun s => by rw [← h]; rfl⟩
  | srv index angle =>
    obtain ⟨ws, h⟩ := setCh_writeAll (index + servoChBase) 0 (pulseTicks angle)
    exact ⟨ws, fun s => by rw [← h]; rfl⟩
  | step dir pair model =>
    simp only [exec, execStep, driveStepper]
    cases stepPairOf pair with
    | none => exact ⟨[], fun _ => rfl⟩
    | some p =>
      exact ⟨([0, 1, 2, 3] : List (Fin 4)).map fun k =>
        let e := Config.roms.step (stepModelOf model) p dir k
        (e.ch, ⟨e.on, e.off⟩), fun _ => rfl⟩
  | _ => cases hi

end Sys2Proof.Machine
end

