-- ==== Sys2Proof/Laws/PerInstr.lean ====
section
/-! SUPPORT. Statements about every command as syntax, one lemma per constructor: the family `Opcode` says that the word
of a command carries the `op` of its row (R83). -/

namespace Sys2Proof.Laws.Opcode

/-- The row of the opcode map a command belongs to (R83). -/
def row : Instr → Row
  | .drvm _ _ _ => .DRVM
  | .mec _ _ => .MEC
  | .nrm _ _ => .NRM
  | .stpm _ => .STPM
  | .stpa => .STPA
  | .srv _ _ => .SRV
  | .step _ _ _ => .STEP
  | .setpx _ _ _ => .SETPX
  | .drawch _ _ _ _ => .DRAWCH
  | .printch _ _ => .PRINTCH
  | .newline => .NEWLINE
  | .hline _ _ _ _ => .HLINE
  | .vline _ _ _ _ => .VLINE
  | .rect _ _ _ _ _ => .RECT
  | .clear => .CLEAR
  | .invert _ => .INVERT
  | .display _ => .DISPLAY
  | .flush => .FLUSH
  | .cfg _ => .CFG

/-- The word of the command carries its row's `op`, and the decoder finds that row. -/
def Statement (i : Instr) : Prop := fieldOp (encode i) = rowOp (row i) ∧ rowOf (encode i) = some (row i)

/-- The decoder finds a row by its `op`. -/
theorem rowOf_of_op {w : CmdWord} {r : Row} (h : fieldOp w = rowOp r) : rowOf w = some r := by
  simp only [rowOf, h]
  cases r <;> decide

/-- The statement follows from the `op` alone. -/
theorem of_op {i : Instr} (h : fieldOp (encode i) = rowOp (row i)) : Statement i := ⟨h, rowOf_of_op h⟩

theorem drvm (dir : Bool) (motor speed : Nat) : Statement (.drvm dir motor speed) := of_op (fieldOp_formatS _ _ _ _ _)
theorem mec (code speed : Nat) : Statement (.mec code speed) := of_op (fieldOp_formatS _ _ _ _ _)
theorem nrm (code speed : Nat) : Statement (.nrm code speed) := of_op (fieldOp_formatS _ _ _ _ _)
theorem stpm (motor : Nat) : Statement (.stpm motor) := of_op (fieldOp_formatS _ _ _ _ _)
theorem stpa : Statement .stpa := of_op (fieldOp_formatS _ _ _ _ _)
theorem srv (index angle : Nat) : Statement (.srv index angle) := of_op (fieldOp_formatS _ _ _ _ _)
theorem step (dir : Bool) (pair : Nat) (model : Bool) : Statement (.step dir pair model) :=
  of_op (fieldOp_formatS _ _ _ _ _)
theorem setpx (colour : Bool) (x y : Nat) : Statement (.setpx colour x y) := of_op (fieldOp_formatS _ _ _ _ _)
theorem drawch (colour : Bool) (ch col row : Nat) : Statement (.drawch colour ch col row) :=
  of_op (fieldOp_formatS _ _ _ _ _)
theorem printch (colour : Bool) (ch : Nat) : Statement (.printch colour ch) := of_op (fieldOp_formatS _ _ _ _ _)
theorem newline : Statement .newline := of_op (fieldOp_formatS _ _ _ _ _)
theorem hline (colour : Bool) (x y len : Nat) : Statement (.hline colour x y len) := of_op (fieldOp_formatS _ _ _ _ _)
theorem vline (colour : Bool) (x y len : Nat) : Statement (.vline colour x y len) := of_op (fieldOp_formatS _ _ _ _ _)
theorem rect (colour : Bool) (x1 y1 x2 y2 : Nat) : Statement (.rect colour x1 y1 x2 y2) :=
  of_op (fieldOp_formatR _ _ _ _ _ _)
theorem clear : Statement .clear := of_op (fieldOp_formatS _ _ _ _ _)
theorem invert (on : Bool) : Statement (.invert on) := of_op (fieldOp_formatS _ _ _ _ _)
theorem display (on : Bool) : Statement (.display on) := of_op (fieldOp_formatS _ _ _ _ _)
theorem flush : Statement .flush := of_op (fieldOp_formatS _ _ _ _ _)
theorem cfg (dbl : Bool) : Statement (.cfg dbl) := of_op (fieldOp_formatS _ _ _ _ _)

end Sys2Proof.Laws.Opcode
end

