-- ==== Sys2Proof/Tests/Slice0.lean ====
section
/-! SUPPORT. Tests of the model and witnesses of the statements. Expected results are taken from the spec: the words from the
tables of `30_encoding.md` and `95_test_vectors.md`, the events and bytes from the vectors of `95_test_vectors.md`. -/

namespace Sys2Proof.Tests
open Sys2Proof Sys2Proof.Machine Sys2Proof.Config

/-! ### Well-formedness: each check refuses an operand that does not fit -/

theorem test_wf_drvm_motor : WellFormed (.drvm false 256 0) = false := by decide
theorem test_wf_drvm_speed : WellFormed (.drvm false 0 256) = false := by decide
theorem test_wf_mec_code : WellFormed (.mec 256 0) = false := by decide
theorem test_wf_mec_speed : WellFormed (.mec 0 256) = false := by decide
theorem test_wf_nrm_code : WellFormed (.nrm 256 0) = false := by decide
theorem test_wf_nrm_speed : WellFormed (.nrm 0 256) = false := by decide
theorem test_wf_stpm_motor : WellFormed (.stpm 256) = false := by decide
theorem test_wf_srv_index : WellFormed (.srv 256 0) = false := by decide
theorem test_wf_srv_angle : WellFormed (.srv 0 256) = false := by decide
theorem test_wf_step_pair : WellFormed (.step false 256 false) = false := by decide
theorem test_wf_setpx_x : WellFormed (.setpx true 256 0) = false := by decide
theorem test_wf_setpx_y : WellFormed (.setpx true 0 256) = false := by decide
theorem test_wf_drawch_ch : WellFormed (.drawch true 256 0 0) = false := by decide
theorem test_wf_drawch_col : WellFormed (.drawch true 0 256 0) = false := by decide
theorem test_wf_drawch_row : WellFormed (.drawch true 0 0 256) = false := by decide
theorem test_wf_printch_ch : WellFormed (.printch true 256) = false := by decide
theorem test_wf_hline_x : WellFormed (.hline true 256 0 0) = false := by decide
theorem test_wf_hline_y : WellFormed (.hline true 0 256 0) = false := by decide
theorem test_wf_hline_len : WellFormed (.hline true 0 0 256) = false := by decide
theorem test_wf_vline_x : WellFormed (.vline true 256 0 0) = false := by decide
theorem test_wf_vline_y : WellFormed (.vline true 0 256 0) = false := by decide
theorem test_wf_vline_len : WellFormed (.vline true 0 0 256) = false := by decide
theorem test_wf_rect_x1 : WellFormed (.rect true 128 0 0 0) = false := by decide
theorem test_wf_rect_y1 : WellFormed (.rect true 0 64 0 0) = false := by decide
theorem test_wf_rect_x2 : WellFormed (.rect true 0 0 128 0) = false := by decide
theorem test_wf_rect_y2 : WellFormed (.rect true 0 0 0 64) = false := by decide

/-! ### Decoding: words written out in the spec -/

theorem test_decode_drvm : decode 0x0C0300FF = .ok (.drvm true 3 255) := by rfl
theorem test_decode_mec : decode 0x10020064 = .ok (.mec 2 100) := by rfl
theorem test_decode_nrm : decode 0x180300FF = .ok (.nrm 3 255) := by rfl
theorem test_decode_stpm : decode 0x20030000 = .ok (.stpm 3) := by rfl
theorem test_decode_stpa : decode 0x28000000 = .ok .stpa := by rfl
theorem test_decode_srv : decode 0x3001005A = .ok (.srv 1 90) := by rfl
theorem test_decode_step : decode 0x38020100 = .ok (.step false 2 true) := by rfl
theorem test_decode_step_dir : decode 0x3C010000 = .ok (.step true 1 false) := by rfl
theorem test_decode_setpx : decode 0x840A1400 = .ok (.setpx true 10 20) := by rfl
theorem test_decode_drawch : decode 0x8C410C03 = .ok (.drawch true 65 12 3) := by rfl
theorem test_decode_printch : decode 0x90480000 = .ok (.printch false 72) := by rfl
theorem test_decode_newline : decode 0x98000000 = .ok .newline := by rfl
theorem test_decode_hline : decode 0xA4780A14 = .ok (.hline true 120 10 20) := by rfl
theorem test_decode_vline : decode 0xAC053C0A = .ok (.vline true 5 60 10) := by rfl
theorem test_decode_rect : decode 0xB450A50C = .ok (.rect true 10 5 20 12) := by rfl
theorem test_decode_rect_swapped : decode 0xB4A18285 = .ok (.rect true 20 12 10 5) := by rfl
theorem test_decode_clear : decode 0xB8000000 = .ok .clear := by rfl
theorem test_decode_invert : decode 0xC4000000 = .ok (.invert true) := by rfl
theorem test_decode_display : decode 0xC8000000 = .ok (.display false) := by rfl
theorem test_decode_flush : decode 0xD0000000 = .ok .flush := by rfl
theorem test_decode_cfg : decode 0xD8000001 = .ok (.cfg true) := by rfl

/-- The illegal words of §2.2 of the test vectors, each with the reason given there. -/
theorem test_decode_illegal :
    decode 0x00000000 = .error .unassignedOp ∧ decode 0x40000000 = .error .unassignedOp ∧
    decode 0xF8000000 = .error .unassignedOp ∧ decode 0x09010080 = .error .reservedBits ∧
    decode 0x08010180 = .error .operandBits ∧ decode 0x14020064 = .error .qualifierSet ∧
    decode 0x28010000 = .error .operandBits ∧ decode 0x38010200 = .error .operandBits ∧
    decode 0x800A1401 = .error .operandBits ∧ decode 0x9C000000 = .error .qualifierSet ∧
    decode 0xD0000001 = .error .operandBits ∧ decode 0xD8000002 = .error .zoomBit ∧
    decode 0xD8000003 = .error .zoomBit := ⟨rfl, rfl, rfl, rfl, rfl, rfl, rfl, rfl, rfl, rfl, rfl, rfl, rfl⟩

theorem test_encode_step : encode (.step true 2 true) = 0x3C020100 := by decide
theorem test_encode_rect : encode (.rect true 0 0 127 63) = 0xB4001FFF := by decide
theorem test_encode_cfg : encode (.cfg true) = 0xD8000001 := by decide
theorem test_asm_step : asm (.step true 1 false) = "STEP 1, M28, 1" := by decide
theorem test_asm_drvm : asm (.drvm true 3 255) = "DRVM 3, CCW, 255" := by decide

/-! ### Operands -/

/-- The table of §2.1 of the test vectors (R125). -/
theorem test_pulseTicks : [0, 1, 2, 10, 45, 89, 90, 91, 135, 150, 179, 180, 181, 255].map pulseTicks =
    [122, 124, 126, 143, 215, 305, 307, 309, 399, 430, 489, 491, 491, 491] := by decide

/-- E1 (R111). -/
theorem test_scale : [0, 1, 128, 255, 256].map scale = [0, 16, 2048, 4080, 4095] := by decide

/-- E3: motor 1 has the channels 6 and 7, motor 4 the channels 0 and 1 (R112). -/
theorem test_motor_channels : allMotors.map (fun m => (pn m, pp m)) = [(6, 7), (4, 5), (2, 3), (0, 1)] := by decide

theorem test_decimalText : decimalText (-120) = [45, 49, 50, 48] := by decide

/-- DRAWSTR of two characters, each 6 columns after the one before (R92). -/
theorem test_drawStr : drawStr false true 3 [72, 65] 12 = some [.drawch true 72 12 3, .drawch true 65 18 3] := by decide

/-! ### A small state, and the ROM images of the spec -/

/-- Both devices initialised, the bank zero, no payload byte known. -/
def base : State where
  bank := Vector.replicate 16 ⟨0, 0⟩
  pwmInit := true
  dispInit := true
  fb := []
  cx := 0
  cy := 0
  cfgDbl := false
  cfgZoom := false
  dispPower := .off
  dispPolarity := .normal
  trace := []
  commands := []

/-- The default images D8, D9 and the images G3, G4; what a vector does not use is left blank. -/
def images : Roms where
  mecOpen d m := match d, m with
    | .forwardLeft, .m1 => .Z | .forwardLeft, .m2 => .P | .forwardLeft, .m3 => .N | .forwardLeft, .m4 => .Z
    | .right, .m1 => .P | .right, .m2 => .N | .right, .m3 => .P | .right, .m4 => .N
    | _, _ => .Z
  nrm d m := match d, m with
    | .backward, .m1 => .N | .backward, .m2 => .N | .clockwise, _ => .P | .counterclockwise, _ => .N
    | .backward, _ => .P | .forward, .m1 => .P | .forward, .m2 => .P | .forward, _ => .N
  step model pair dir k := match model, pair, dir, k with
    | .m28, .p1, true, 0 => ⟨4, 2047, 4095⟩ | .m28, .p1, true, 1 => ⟨6, 1, 2047⟩
    | .m28, .p1, true, 2 => ⟨5, 1023, 3071⟩ | .m28, .p1, true, 3 => ⟨7, 3071, 1023⟩
    | .m42, .p2, false, 0 => ⟨3, 4095, 2047⟩ | .m42, .p2, false, 1 => ⟨2, 2047, 4095⟩
    | .m42, .p2, false, 2 => ⟨1, 3071, 1023⟩ | .m42, .p2, false, 3 => ⟨0, 1023, 3071⟩
    | _, _, _, _ => ⟨0, 0, 0⟩
  font k := match k.val with
    | 165 => 0x7C | 166 => 0x12 | 167 => 0x11 | 168 => 0x12 | 169 => 0x7C
    | _ => 0x00

/-- The events a command appends. -/
def events (o : Outcome) : Option (List Event) :=
  match o with
  | .next t => some t.trace
  | .fault _ => none
  | .refused _ => none

/-- A property of the next state. -/
def nextIs (o : Outcome) (p : State → Bool) : Bool :=
  match o with
  | .next t => p t
  | .fault _ => false
  | .refused _ => false

/-- The command stops with `U_FB_OOB`. -/
def isOob (o : Outcome) : Bool :=
  match o with
  | .fault .fbOob => true
  | .next _ => false
  | .refused _ => false

/-! ### The router (§2.1 of the test vectors) -/

theorem test_drvm_inverted : events (exec (.drvm true 3 255) base) = some [.pwmSet 3 0 4080, .pwmSet 2 0 0] := by decide
theorem test_drvm_invalid : events (exec (.drvm false 5 50) base) = some [] := by decide
theorem test_mec_forward : events (.next (driveMecanum images 2 255 base)) =
    some [.pwmSet 7 0 4080, .pwmSet 6 0 0, .pwmSet 5 0 4080, .pwmSet 4 0 0, .pwmSet 3 0 0, .pwmSet 2 0 4080,
      .pwmSet 1 0 0, .pwmSet 0 0 4080] := by decide
theorem test_mec_diagonal : events (.next (driveMecanum images 1 10 base)) =
    some [.pwmSet 7 0 0, .pwmSet 6 0 0, .pwmSet 5 0 160, .pwmSet 4 0 0, .pwmSet 3 0 0, .pwmSet 2 0 160,
      .pwmSet 1 0 0, .pwmSet 0 0 0] := by decide
theorem test_nrm_backward : events (.next (driveNormal images 2 100 base)) =
    some [.pwmSet 7 0 0, .pwmSet 6 0 1600, .pwmSet 5 0 0, .pwmSet 4 0 1600, .pwmSet 3 0 1600, .pwmSet 2 0 0,
      .pwmSet 1 0 1600, .pwmSet 0 0 0] := by decide
theorem test_nrm_clockwise : events (.next (driveNormal images 3 1 base)) =
    some [.pwmSet 7 0 16, .pwmSet 6 0 0, .pwmSet 5 0 16, .pwmSet 4 0 0, .pwmSet 3 0 16, .pwmSet 2 0 0,
      .pwmSet 1 0 16, .pwmSet 0 0 0] := by decide
theorem test_stpm : events (exec (.stpm 3) base) = some [.pwmSet 3 0 0, .pwmSet 2 0 0] := by decide
theorem test_stpm_zero : events (exec (.stpm 0) base) = some [] := by decide
theorem test_stpa : events (exec .stpa base) =
    some [.pwmSet 7 0 0, .pwmSet 6 0 0, .pwmSet 5 0 0, .pwmSet 4 0 0, .pwmSet 3 0 0, .pwmSet 2 0 0, .pwmSet 1 0 0,
      .pwmSet 0 0 0] := by decide
theorem test_srv : events (exec (.srv 0 45) base) = some [.pwmSet 7 0 215] := by decide
theorem test_srv_dropped : events (exec (.srv 9 45) base) = some [] := by decide
theorem test_step_28 : events (.next (driveStepper images true 1 false base)) =
    some [.pwmSet 4 2047 4095, .pwmSet 6 1 2047, .pwmSet 5 1023 3071, .pwmSet 7 3071 1023] := by decide
theorem test_step_42 : events (.next (driveStepper images false 2 true base)) =
    some [.pwmSet 3 4095 2047, .pwmSet 2 2047 4095, .pwmSet 1 3071 1023, .pwmSet 0 1023 3071] := by decide

/-- P1, row 2: an invalid motor still initialises the bank, first of all. -/
theorem test_router_first : events (exec (.drvm false 9 5) { base with pwmInit := false }) = some [.pwmInit] := by decide

/-! ### The renderer (§2.3 to §2.5 of the test vectors) -/

theorem test_setpx : nextIs (exec (.setpx true 10 20) { base with fb := [(267, 0x00)] })
    (fun t => t.fb = [(267, 0x10)] && t.trace = [.dispStream 10 2 [0x10]]) = true := by decide
theorem test_setpx_corner : nextIs (exec (.setpx true 127 63) { base with fb := [(1024, 0x00)] })
    (fun t => t.fb = [(1024, 0x80)]) = true := by decide
theorem test_drawch_inverted : nextIs (drawChar images 65 122 7 false base)
    (fun t => t.fb = [(1019, 0x83), (1020, 0xED), (1021, 0xEE), (1022, 0xED), (1023, 0x83), (1024, 0xFF)] &&
      t.trace = [.dispStream 122 7 [0x83, 0xED, 0xEE, 0xED, 0x83, 0xFF]]) = true := by decide
theorem test_drawch_double : nextIs (drawChar images 65 0 0 true { base with
      cfgDbl := true, fb := [(1, 0x00), (3, 0x00), (129, 0x00), (131, 0xFF)] })
    (fun t => fbByte t 1 = 0xF0 && fbByte t 3 = 0x0C && fbByte t 129 = 0x3F && fbByte t 131 = 0x03 &&
      t.trace = []) = true := by decide +kernel
theorem test_printch_wraps : nextIs (printChar images true 65 { base with cx := 120 })
    (fun t => t.cx = 0 && t.cy = 1 && t.trace = [.dispStream 120 0 [0x7C, 0x12, 0x11, 0x12, 0x7C, 0x00]]) = true := by
  decide
theorem test_printch_advances : nextIs (printChar images true 65 { base with cx := 108, cfgDbl := true })
    (fun t => t.cx = 120 && t.cy = 0) = true := by decide
theorem test_newline : nextIs (exec .newline { base with cx := 6 })
    (fun t => t.cx = 0 && t.cy = 1 && t.trace = []) = true := by decide
theorem test_newline_scrolls : nextIs (exec .newline { base with cy := 7, fb := [(129, 0x7C)] })
    (fun t => fbByte t 0 = 0x40 && fbByte t 1 = 0x7C && fbByte t 897 = 0x00 && t.cy = 7) = true := by decide +kernel
theorem test_hline_clipped : nextIs (exec (.hline true 120 10 20) { base with fb := [(249, 0x00), (256, 0x80), (257, 0x00)] })
    (fun t => fbByte t 249 = 0x04 && fbByte t 256 = 0x84 && fbByte t 257 = 0x00) = true := by decide
theorem test_hline_row_outside : nextIs (exec (.hline true 5 64 10) base) (fun t => t.fb = []) = true := by decide
theorem test_vline_clipped : nextIs (exec (.vline true 5 60 10) { base with fb := [(902, 0x00)] })
    (fun t => t.fb = [(902, 0xF0)]) = true := by decide
theorem test_vline_page_edge : nextIs (exec (.vline true 127 6 4) { base with fb := [(128, 0x00), (256, 0x00)] })
    (fun t => t.fb = [(128, 0xC0), (256, 0x03)]) = true := by decide
theorem test_rect_swapped : nextIs (exec (.rect true 20 12 10 5) { base with
      fb := [(11, 0x00), (12, 0x00), (139, 0x00), (140, 0x00), (149, 0x00)] })
    (fun t => fbByte t 11 = 0xE0 && fbByte t 12 = 0x20 && fbByte t 139 = 0x1F && fbByte t 140 = 0x10 &&
      fbByte t 149 = 0x1F) = true := by decide
theorem test_clear : nextIs (exec .clear { base with cx := 6, cy := 3, fb := [(5, 0xFF)] })
    (fun t => fbByte t 0 = 0x40 && fbByte t 5 = 0x00 && t.cx = 0 && t.cy = 0) = true := by decide +kernel
theorem test_invert : nextIs (exec (.invert true) base)
    (fun t => t.dispPolarity = .inverted && t.trace = [.dispCmdInvert true]) = true := by decide
theorem test_display : nextIs (exec (.display true) base)
    (fun t => t.dispPower = .on && t.trace = [.dispCmdPower true]) = true := by decide
theorem test_flush_first : nextIs (exec .flush { base with dispInit := false })
    (fun t => t.dispInit && t.trace.head? = some .dispInit && t.trace.length = 2) = true := by decide
theorem test_cfg : nextIs (exec (.cfg true) { base with dispInit := false })
    (fun t => t.cfgDbl && !t.dispInit && t.trace = []) = true := by decide

/-- The cases of §2.5. -/
theorem test_unpredictable :
    isOob (exec (.setpx true 128 0) base) ∧ isOob (exec (.setpx true 0 64) base) ∧
    isOob (exec (.drawch true 65 123 0) base) ∧ isOob (exec (.drawch true 65 0 8) base) ∧
    isOob (exec (.drawch true 65 119 0) { base with cfgDbl := true }) ∧
    isOob (exec (.drawch true 65 0 7) { base with cfgDbl := true }) ∧
    isOob (exec (.printch true 65) { base with cfgDbl := true, cy := 7 }) := by decide

/-! ### The host's interface -/

theorem test_decodeTableWord : decodeTableWord 32 0xD8000001 = some (.cfg true) := by decide
theorem test_step_fetches : nextIs (step (base.withFetchWord 32 0xD8000001)) (fun t => t.cfgDbl && t.commands = []) = true := by
  decide

/-! ### Witnesses: concrete states and operands that meet the hypotheses of the statements, at the ends of their ranges -/

theorem witness_DecodeOfEncode :
    WellFormed (.rect true 127 63 127 63) = true ∧ WellFormed (.drvm true 255 255) = true := by decide
theorem witness_EncodeOfDecode : decode 0xB7FFFFFF = .ok (.rect true 127 63 127 63) := by rfl
theorem witness_OneRowDecides :
    (0x0CFF00FF : CmdWord) &&& rowMask .DRVM = rowMatch .DRVM ∧ decode 0x0CFF00FF = .ok (.drvm true 255 255) :=
  ⟨by decide, rfl⟩
theorem witness_IllegalWordsListed : decode 0xD8000002 = .error .zoomBit ∧ fieldC 0xD8000002 = 2 := ⟨rfl, by decide⟩
theorem witness_WordIsShiftedFields : 255 < 256 ∧ 127 < 128 ∧ 63 < 64 := by decide
theorem witness_StepRunsDecodedCommand :
    { base with commands := [0x28000000] }.cfgZoom = false ∧
    { base with commands := [0x28000000] }.commands = 0x28000000 :: [] ∧ decode 0x28000000 = .ok .stpa := ⟨rfl, rfl, rfl⟩
theorem witness_IllegalWordChangesNothing :
    { base with commands := [0x00000000] }.cfgZoom = false ∧
    { base with commands := [0x00000000] }.commands = 0x00000000 :: [] ∧ decode 0x00000000 = .error .unassignedOp :=
  ⟨rfl, rfl, rfl⟩
theorem witness_ZoomIsRefused : { base with cfgZoom := true }.cfgZoom = true := by rfl

/-- The bottom right of the cursor's range, with a NEWLINE to execute and nothing initialised. -/
def corner : State :=
  { base with cx := 120, cy := 7, pwmInit := false, dispInit := false, commands := [0x98000000] }

theorem corner_inv : StateInv corner := by unfold StateInv; decide

theorem witness_StepKeepsInvariant : StateInv corner ∧ ∃ t, step corner = .next t := ⟨corner_inv, _, rfl⟩
theorem witness_StepKeepsTraceInvariant : StateInv corner ∧ TraceInv corner ∧ ∃ t, step corner = .next t :=
  ⟨corner_inv, ⟨rfl, rfl, fun _ h => nomatch h⟩, _, rfl⟩
theorem witness_FlagsAndTraceOnlyGrow : base.pwmInit = true ∧ base.dispInit = true ∧ ∃ t, step base = .next t :=
  ⟨rfl, rfl, _, rfl⟩
theorem witness_StepStopsExactlyOutOfPicture :
    (StateInv { base with commands := [0x84800000] } ∧ step { base with commands := [0x84800000] } = .fault .fbOob) ∧
    StateInv corner ∧ ∃ t, step corner = .next t :=
  ⟨⟨by unfold StateInv; decide, rfl⟩, corner_inv, _, rfl⟩
theorem witness_UnitsAreSeparate :
    (isRouter .stpa = true ∧ ∃ t, exec .stpa base = .next t) ∧ isRouter .clear = false ∧ ∃ t, exec .clear base = .next t :=
  ⟨⟨rfl, _, rfl⟩, rfl, _, rfl⟩
theorem witness_InitialisationComesFirst :
    (isRouter .stpa = true ∧ ∃ t, exec .stpa corner = .next t) ∧
    usesDisplay .flush = true ∧ ∃ t, exec .flush corner = .next t := ⟨⟨rfl, _, rfl⟩, rfl, _, rfl⟩
theorem witness_BankIsNeverRead :
    (∃ t, exec .stpa base = .next t) ∧ exec (.setpx true 128 0) base = .fault .fbOob ∧
    exec (.printch true 65) { base with cfgZoom := true } = .refused .zoomConfigured := ⟨⟨_, rfl⟩, rfl, rfl⟩
theorem witness_TraceIsNeverRead :
    (∃ t, exec .flush base = .next t) ∧ exec (.setpx true 0 64) base = .fault .fbOob ∧
    exec (.printch true 65) { base with cfgZoom := true } = .refused .zoomConfigured := ⟨⟨_, rfl⟩, rfl, rfl⟩
theorem witness_WhoWritesCursorAndModes :
    (∀ colour ch, Instr.flush ≠ .printch colour ch) ∧ Instr.flush ≠ .newline ∧ Instr.flush ≠ .clear ∧
    (∀ dbl, Instr.flush ≠ .cfg dbl) ∧ (∀ on, Instr.flush ≠ .invert on) ∧ (∀ on, Instr.flush ≠ .display on) ∧
    ∃ t, exec .flush base = .next t := ⟨nofun, nofun, nofun, nofun, nofun, nofun, _, rfl⟩
theorem witness_CommandsAreIdempotent :
    (∀ colour ch, Instr.drawch true 65 122 7 ≠ .printch colour ch) ∧ Instr.drawch true 65 122 7 ≠ .newline ∧
    ∃ t, exec (.drawch true 65 122 7) base = .next t := ⟨nofun, nofun, _, rfl⟩
theorem witness_RouterWritesStayInRange :
    isRouter (.drvm false 1 255) = true ∧ WellFormed (.drvm false 1 255) = true ∧
    (∀ dir pair model, Instr.drvm false 1 255 ≠ .step dir pair model) ∧ ∃ t, exec (.drvm false 1 255) base = .next t :=
  ⟨rfl, rfl, nofun, _, rfl⟩
theorem witness_ScaleShape : ((0 : Int) ≤ 0 ∧ (0 : Int) ≤ 255) ∧ ((0 : Int) ≤ 255 ∧ (255 : Int) ≤ 255) ∧ (-256 : Int) ≤ 256 := by
  decide
theorem witness_GlyphIndexInFont : 0 ≤ 32 ∧ 32 ≤ 32 ∧ 127 ≤ 127 := by decide
theorem witness_PulseTicksShape :
    0 ≤ 180 ∧ 180 ≤ 180 ∧ (179 < 180 ∧ 180 ≤ 180) ∧ (0 : Int) ≤ 0 ∧ (180 : Int) ≤ 180 := by decide
theorem witness_MotorChannelPairs :
    motorOf 1 = some .m1 ∧ motorOf 4 = some .m4 ∧ 1 ≤ 1 ∧ 4 ≤ 4 ∧ (0 ≤ 7 ∧ pn .m4 = 0) ∧ 7 ≤ 7 ∧ pp .m1 = 7 := by decide
theorem witness_DrvmDrivesOneMotor : (1 ≤ 1 ∧ 1 ≤ 4) ∧ (1 ≤ 4 ∧ 4 ≤ 4) ∧ (0 < 1 ∨ 4 < 0) ∧ (5 < 1 ∨ 4 < 5) := by decide
theorem witness_MecRoutesFourMotors : (1 ≤ 1 ∧ 1 ≤ 9) ∧ (1 ≤ 9 ∧ 9 ≤ 9) ∧ (0 < 1 ∨ 9 < 0) ∧ (10 < 1 ∨ 9 < 10) := by decide
theorem witness_NrmRoutesFourMotors : (1 ≤ 1 ∧ 1 ≤ 4) ∧ (1 ≤ 4 ∧ 4 ≤ 4) ∧ (0 < 1 ∨ 4 < 0) ∧ (5 < 1 ∨ 4 < 5) := by decide
theorem witness_StpmStopsOneMotor : (1 ≤ 1 ∧ 1 ≤ 4) ∧ (1 ≤ 4 ∧ 4 ≤ 4) ∧ (0 < 1 ∨ 4 < 0) ∧ (5 < 1 ∨ 4 < 5) := by decide
theorem witness_SrvWritesOneServo : 0 ≤ 8 ∧ 8 ≤ 8 ∧ 9 ≤ 9 := by decide
theorem witness_StepWritesFourPhases : (1 ≤ 1 ∧ 1 ≤ 2) ∧ (1 ≤ 2 ∧ 2 ≤ 2) ∧ (0 < 1 ∨ 2 < 0) ∧ (3 < 1 ∨ 2 < 3) := by decide
theorem witness_SetpxSetsOnePixel : 127 ≤ 127 ∧ 63 ≤ 63 ∧ ∃ t, exec (.setpx true 127 63) base = .next t :=
  ⟨by decide, by decide, _, rfl⟩
theorem witness_SetpxOutsideFaults : (127 < 128 ∨ 63 < 0) ∧ (127 < 0 ∨ 63 < 64) := by decide
theorem witness_SetPixelWritesOneBit : (127 ≤ 127 ∧ 63 ≤ 63) ∧ (127 < 128 ∨ 63 < 0) ∧ (127 < 0 ∨ 63 < 64) := by decide
theorem witness_DrawchSingleCopiesGlyph : base.cfgZoom = false ∧ base.cfgDbl = false ∧ 7 ≤ 7 ∧ 122 ≤ 122 := by decide
theorem witness_DrawchDoubleDrawsBlocks :
    { base with cfgDbl := true }.cfgZoom = false ∧ { base with cfgDbl := true }.cfgDbl = true ∧ 6 ≤ 6 ∧ 118 ≤ 118 := by
  decide
theorem witness_DrawchOutsideFaults :
    (base.cfgZoom = false ∧ base.cfgDbl = false ∧ (7 < 8 ∨ 122 < 0) ∧ (7 < 0 ∨ 122 < 123)) ∧
    { base with cfgDbl := true }.cfgZoom = false ∧ { base with cfgDbl := true }.cfgDbl = true ∧
    (6 < 7 ∨ 118 < 0) ∧ (6 < 0 ∨ 118 < 119) := by decide

/-- `base` with a cursor and a size. -/
def at_ (cx : BitVec 8) (cy : BitVec 4) (dbl : Bool) : State := { base with cx := cx, cy := cy, cfgDbl := dbl }

theorem witness_PrintchDrawsThenAdvances :
    ((at_ 114 7 false).cfgZoom = false ∧ (at_ 114 7 false).cfgDbl = false ∧ (at_ 114 7 false).cy.toNat ≤ 7 ∧
      (at_ 114 7 false).cx.toNat + 6 ≤ 120) ∧
    ((at_ 122 7 false).cfgDbl = false ∧ (at_ 122 7 false).cx.toNat ≤ 122 ∧ 120 < (at_ 122 7 false).cx.toNat + 6) ∧
    ((at_ 108 6 true).cfgDbl = true ∧ (at_ 108 6 true).cy.toNat ≤ 6 ∧ (at_ 108 6 true).cx.toNat + 12 ≤ 120) ∧
    ((at_ 118 6 true).cfgDbl = true ∧ (at_ 118 6 true).cx.toNat ≤ 118 ∧ 120 < (at_ 118 6 true).cx.toNat + 12) := by
  decide
theorem witness_PrintchOutsideFaults :
    ((at_ 123 0 false).cfgZoom = false ∧ (at_ 123 0 false).cfgDbl = false ∧ 122 < (at_ 123 0 false).cx.toNat) ∧
    ((at_ 0 8 false).cfgDbl = false ∧ 7 < (at_ 0 8 false).cy.toNat) ∧
    ((at_ 119 0 true).cfgDbl = true ∧ 118 < (at_ 119 0 true).cx.toNat) ∧
    ((at_ 0 7 true).cfgDbl = true ∧ 6 < (at_ 0 7 true).cy.toNat) := by decide
theorem witness_NewlineMovesDown : (at_ 0 6 true).cy.toNat < 7 := by decide
theorem witness_NewlineScrollsAtTheBottom : (at_ 120 7 false).cy = 7 := by decide
theorem witness_EightNewlinesBlankThePicture : (at_ 120 7 true).cy = 7 := by decide
theorem witness_ScrollIsTheLoop : Memory.wf [(1, 0xFF), (1024, 0x00)] := by decide
theorem witness_ClearIsTheLoop : Memory.wf [(1, 0xFF), (1024, 0x00)] := by decide
theorem witness_DrawstrFitsExactly :
    base.cfgZoom = false ∧ [65, 65] ≠ [] ∧
    (∃ is, drawStr base.cfgDbl true 7 [65, 65] 116 = some is ∧ 116 + 6 * ([65, 65].length - 1) ≤ 122) ∧
    ∃ is, drawStr base.cfgDbl true 7 [65, 65] 117 = some is ∧ ¬ 117 + 6 * ([65, 65].length - 1) ≤ 122 :=
  ⟨rfl, nofun, ⟨_, rfl, by decide⟩, _, rfl, by decide⟩
theorem witness_PrintstrSingleNeverStops : StateInv corner ∧ corner.cfgDbl = false := ⟨corner_inv, rfl⟩
theorem witness_HlineDrawsClipped : ∃ t, exec (.hline true 127 63 255) base = .next t := ⟨_, rfl⟩
theorem witness_VlineDrawsClipped : ∃ t, exec (.vline true 127 63 255) base = .next t := ⟨_, rfl⟩
theorem witness_RectDrawsTheOutline : ∃ t, exec (.rect true 127 63 0 0) base = .next t := ⟨_, rfl⟩
theorem witness_FullFlushDeliversEverything :
    (∃ t, exec (.hline true 0 63 255) base = .next t) ∧ (∃ t, exec (.vline true 127 0 64) base = .next t) ∧
    (∃ t, exec (.rect true 0 0 127 63) base = .next t) ∧ (∃ t, exec .clear base = .next t) ∧
    (∃ t, exec .flush base = .next t) ∧ (7 ≤ corner.cy.toNat ∧ ∃ t, exec .newline corner = .next t) ∧
    (7 ≤ (at_ 115 7 false).cy.toNat ∧ (120 < (at_ 115 7 false).cx.toNat + if (at_ 115 7 false).cfgDbl then 12 else 6) ∧
      ∃ t, exec (.printch true 65) (at_ 115 7 false) = .next t) :=
  ⟨⟨_, rfl⟩, ⟨_, rfl⟩, ⟨_, rfl⟩, ⟨_, rfl⟩, ⟨_, rfl⟩, ⟨by decide, _, rfl⟩, by decide, by decide, _, rfl⟩

/-- A display that shows the framebuffer of `base`. -/
def shown : State := { base with trace := [.dispFlush (image base)], commands := [0x94410000] }

theorem shown_current : picture shown.trace = some ((List.range 1025).map (fbByte shown)) := by
  rw [fbByte_of_fb (s := base) (t := shown) rfl]
  simp only [picture, shown, List.foldl_cons, List.foldl_nil, showEvent, image, fbBytes]

theorem witness_SingleSizeKeepsDisplayCurrent :
    shown.cfgDbl = false ∧ shown.dispInit = true ∧ picture shown.trace = some ((List.range 1025).map (fbByte shown)) ∧
    (Instr.printch true 65 ≠ .cfg true ∧ ∃ t, exec (.printch true 65) shown = .next t) ∧
    (∀ w ws, shown.commands = w :: ws → decode w ≠ .ok (.cfg true)) ∧ ∃ t, step shown = .next t := by
  refine ⟨rfl, rfl, ?_, ⟨nofun, _, rfl⟩, ?_, _, rfl⟩
  · exact shown_current
  · rintro w ws h
    obtain ⟨rfl, rfl⟩ := List.cons.inj h.symm
    exact nofun

end Sys2Proof.Tests
end

section
/-! PROOF. The operand maps of the PWM router (`40_pwm_router.md`): motor to duty (R111), motor to channels (R112),
angle to ticks (R125). -/

namespace Sys2Proof.Machine
open Sys2Proof.Config

/-! ### The clamp -/

theorem clamp_eq_max_min {lo hi : Int} (h : lo ≤ hi) (v : Int) : clamp v lo hi = max lo (min v hi) := by
  unfold clamp
  split
  · omega
  · split <;> omega

theorem clamp_mono {lo hi : Int} (h : lo ≤ hi) {v w : Int} (hvw : v ≤ w) : clamp v lo hi ≤ clamp w lo hi := by
  rw [clamp_eq_max_min h, clamp_eq_max_min h]
  gcongr

/-- On an interval symmetric about 0 the clamp is odd. -/
theorem clamp_neg {hi : Int} (h : 0 ≤ hi) (v : Int) : clamp (-v) (-hi) hi = -clamp v (-hi) hi := by
  have hle : -hi ≤ hi := by omega
  rw [clamp_eq_max_min hle, clamp_eq_max_min hle]
  omega

/-! ### Motor to duty -/

theorem scale_eq_max_min (v : Int) : scale v = max (-4095) (min (v * 16) 4095) :=
  clamp_eq_max_min (by decide) (v * 16)

/-- 4095 is no multiple of 16: the clamp acts from 256 on, and up to 255 it does not (R111). -/
theorem scale_eq_mul_iff (v : Int) : scale v = v * 16 ↔ -256 < v ∧ v < 256 := by
  rw [scale_eq_max_min]
  omega

theorem scale_mono {v w : Int} (h : v ≤ w) : scale v ≤ scale w :=
  clamp_mono (by decide) (Int.mul_le_mul_of_nonneg_right h (by decide))

theorem scale_neg (v : Int) : scale (-v) = -scale v := by
  simp only [scale, Int.neg_mul]
  exact clamp_neg (by decide) _

/-- Settles O23: the clamp is a maximum of a minimum, so it is monotonic, and its interval is symmetric, so it is odd. -/
theorem scaleShape : Obligations.ScaleShape := by
  refine ⟨scale_eq_max_min, scale_eq_mul_iff, by decide, by decide, ?_, fun _ _ => scale_mono, scale_neg, by decide⟩
  intro v h0 h255
  have hexact : scale v = v * 16 := (scale_eq_mul_iff v).2 (by omega)
  rw [scale_neg, hexact]
  omega

/-! ### Angle to ticks -/

/-- 180 divides the span of 1800 µs, so each degree is 10 µs exactly (R125). -/
theorem servoUs_eq (a : Nat) : servoUs a = a * 10 + 600 := by
  simp only [servoUs, servoUsSpan, angleMax, servoUsMin]
  omega

theorem pulseTicks_eq (a : Int) : pulseTicks a = ((max 0 (min a 180)).toNat * 10 + 600) * 4096 / 20000 := by
  simp only [pulseTicks, servoUs_eq, clamp_eq_max_min (show (0 : Int) ≤ (180 : Nat) by decide)]
  rfl

theorem pulseTicks_of_le_180 {a : Nat} (h : a ≤ 180) : pulseTicks a = (a * 10 + 600) * 4096 / 20000 := by
  have hclamp : (max 0 (min (a : Int) 180)).toNat = a := by omega
  rw [pulseTicks_eq, hclamp]

theorem pulseTicks_of_nonpos {a : Int} (h : a ≤ 0) : pulseTicks a = 122 := by
  have hclamp : (max 0 (min a 180)).toNat = 0 := by omega
  rw [pulseTicks_eq, hclamp]

theorem pulseTicks_of_180_le {a : Int} (h : 180 ≤ a) : pulseTicks a = 491 := by
  have hclamp : (max 0 (min a 180)).toNat = 180 := by omega
  rw [pulseTicks_eq, hclamp]

/-- A degree adds 40960 to the dividend, more than the divisor 20000, so the truncated quotient grows (R125). -/
theorem pulseTicks_lt {a b : Nat} (hab : a < b) (hb : b ≤ 180) : pulseTicks a < pulseTicks b := by
  rw [pulseTicks_of_le_180 (by omega), pulseTicks_of_le_180 hb]
  calc (a * 10 + 600) * 4096 / 20000
      < ((a * 10 + 600) * 4096 + 20000) / 20000 := by rw [Nat.add_div_right _ (by decide)]; exact Nat.lt_succ_self _
    _ ≤ (b * 10 + 600) * 4096 / 20000 := Nat.div_le_div_right (by omega)

/-- Settles O24, from the pulse width in microseconds and the value of the clamp on each side of its ends. -/
theorem pulseTicksShape : Obligations.PulseTicksShape := by
  refine ⟨?_, pulseTicks_eq, by decide, fun _ _ => pulseTicks_lt, fun _ => pulseTicks_of_nonpos,
    fun _ => pulseTicks_of_180_le⟩
  intro a ha
  rw [servoUs_eq]
  omega

/-! ### Motor to channels -/

theorem motorIndex_bounds (m : Motor) : 1 ≤ motorIndex m ∧ motorIndex m ≤ 4 := by cases m <;> decide

/-- The index of a motor's number is that motor, and no other index is (R9, R113). -/
theorem motorOf_eq_some_iff {index : Nat} {m : Motor} : motorOf index = some m ↔ motorIndex m = index := by
  constructor
  · unfold motorOf
    split <;> rintro ⟨⟩ <;> rfl
  · rintro rfl
    cases m <;> rfl

theorem exists_motorOf {index : Nat} (h1 : 1 ≤ index) (h4 : index ≤ 4) : ∃ m, motorOf index = some m := by
  interval_cases index <;> exact ⟨_, rfl⟩

/-- Channels 0 to 7 are the pairs of motors 4 down to 1: a channel's half counts down from 4 to its motor (R112). -/
theorem pn_or_pp_eq_iff {ch : Nat} (h : ch ≤ 7) (m : Motor) : pn m = ch ∨ pp m = ch ↔ motorOf (4 - ch / 2) = some m := by
  have := motorIndex_bounds m
  simp only [motorOf_eq_some_iff, pn, pp]
  omega

/-- Settles O25: a motor index is the motor's number, and a channel's motor is the one of index `4 - ch / 2`. -/
theorem motorChannelPairs : Obligations.MotorChannelPairs := by
  refine ⟨?_, fun _ => exists_motorOf, ?_⟩
  · intro index m hm
    obtain rfl := motorOf_eq_some_iff.1 hm
    obtain ⟨h1, h4⟩ := motorIndex_bounds m
    exact ⟨h1, h4, rfl, rfl⟩
  · intro ch hch
    obtain ⟨m, hm⟩ := exists_motorOf (index := 4 - ch / 2) (by omega) (by omega)
    refine ⟨m, (pn_or_pp_eq_iff hch m).2 hm, fun m' hm' => ?_⟩
    exact Option.some.inj (((pn_or_pp_eq_iff hch m').1 hm').symm.trans hm)

end Sys2Proof.Machine
end

section
/-! PROOF. Pixels and text of the renderer (`41_renderer_pixel_text.md`): the glyph of a character code (R151). -/

namespace Sys2Proof.Machine
open Sys2Proof.Config

/-! ### The glyph base -/

/-- The formula of R151 in natural numbers: the clamped code is never below 32, so the subtraction is exact. -/
theorem glyphBase_eq (ch : Nat) : glyphBase ch = (max 32 (min ch 127) - 32) * 5 := by
  have hclamp : (max (32 : Int) (min (ch : Int) 127)).toNat = max 32 (min ch 127) := by omega
  rw [glyphBase, clamp_eq_max_min (by decide)]
  exact congrArg (fun code => (code - 32) * 5) hclamp

theorem glyphBase_of_le_32 {ch : Nat} (h : ch ≤ 32) : glyphBase ch = 0 := by
  have hclamp : max 32 (min ch 127) = 32 := by omega
  rw [glyphBase_eq, hclamp]

theorem glyphBase_of_127_le {ch : Nat} (h : 127 ≤ ch) : glyphBase ch = 475 := by
  have hclamp : max 32 (min ch 127) = 127 := by omega
  rw [glyphBase_eq, hclamp]

theorem five_dvd_glyphBase (ch : Nat) : 5 ∣ glyphBase ch := by
  rw [glyphBase_eq]
  exact Nat.dvd_mul_left 5 _

/-- Settles O35, from the glyph base in natural numbers; a glyph's bytes are read at `glyphIndex`, inside the font. -/
theorem glyphIndexInFont : Obligations.GlyphIndexInFont :=
  ⟨fun ch => ⟨glyphBase_eq ch, Nat.mod_eq_zero_of_dvd (five_dvd_glyphBase ch), glyphBase_le ch⟩,
    fun _ => glyphBase_of_le_32, fun _ => glyphBase_of_127_le, fun _ ch i => ⟨(glyphIndex ch i).isLt, rfl⟩⟩

end Sys2Proof.Machine
end

section
/-! PROOF. The encoding (`30_encoding.md`): a word as its fields, the rows of the opcode map as conditions on the fields
(R83, R87), and the two directions of the round trip (R83 to R86, R91). -/

namespace Sys2Proof

/-! ### A word as its fields -/

/-- The six fields of format S, the reserved one kept, as one word (R81). -/
def joined (op : BitVec 5) (q : Bool) (rsv : BitVec 2) (a b c : BitVec 8) : CmdWord :=
  op ++ BitVec.ofBool q ++ rsv ++ a ++ b ++ c

theorem joined_fields (w : CmdWord) :
    joined (fieldOp w) (fieldQ w) (fieldRsv w) (w.extractLsb' 16 8) (w.extractLsb' 8 8) (w.extractLsb' 0 8) = w := by
  apply BitVec.eq_of_getLsbD_eq
  intro i hi
  simp only [joined, fieldOp, fieldQ, fieldRsv, BitVec.getLsbD_append, BitVec.getLsbD_extractLsb',
    BitVec.getLsbD_ofBool]
  grind

theorem ofBool_and_ofBool (p q : Bool) : BitVec.ofBool p &&& BitVec.ofBool q = BitVec.ofBool (p && q) := by
  cases p <;> cases q <;> rfl

theorem joined_and (op op' : BitVec 5) (q q' : Bool) (rsv rsv' : BitVec 2) (a a' b b' c c' : BitVec 8) :
    joined op q rsv a b c &&& joined op' q' rsv' a' b' c' =
      joined (op &&& op') (q && q') (rsv &&& rsv') (a &&& a') (b &&& b') (c &&& c') := by
  simp only [joined, ← ofBool_and_ofBool, ← BitVec.and_append]

theorem bitVec_append_inj {m n : Nat} {x x' : BitVec m} {y y' : BitVec n} : x ++ y = x' ++ y' ↔ x = x' ∧ y = y' := by
  refine ⟨fun h => ?_, fun ⟨hx, hy⟩ => by rw [hx, hy]⟩
  have hbit : ∀ i, (x ++ y).getLsbD i = (x' ++ y').getLsbD i := fun i => by rw [h]
  simp only [BitVec.getLsbD_append] at hbit
  constructor
  · apply BitVec.eq_of_getLsbD_eq
    intro i _
    simpa using hbit (n + i)
  · apply BitVec.eq_of_getLsbD_eq
    intro i hi
    simpa [hi] using hbit i

theorem joined_inj {op op' : BitVec 5} {q q' : Bool} {rsv rsv' : BitVec 2} {a a' b b' c c' : BitVec 8} :
    joined op q rsv a b c = joined op' q' rsv' a' b' c' ↔
      op = op' ∧ q = q' ∧ rsv = rsv' ∧ a = a' ∧ b = b' ∧ c = c' := by
  have hq : BitVec.ofBool q = BitVec.ofBool q' ↔ q = q' := by cases q <;> cases q' <;> decide
  have h : joined op q rsv a b c = joined op' q' rsv' a' b' c' ↔ _ :=
    bitVec_append_inj.trans (and_congr_left' (bitVec_append_inj.trans (and_congr_left' (bitVec_append_inj.trans
      (and_congr_left' (bitVec_append_inj.trans (and_congr_left' bitVec_append_inj)))))))
  rw [h, hq]
  tauto

/-- A word whose reserved bits are 0 is the format S word of its fields (R81). -/
theorem formatS_fields {w : CmdWord} (h : fieldRsv w = 0) :
    formatS (fieldOp w) (fieldQ w) (fieldA w) (fieldB w) (fieldC w) = w := by
  conv_rhs => rw [← joined_fields w, h]
  simp only [formatS, fieldA, fieldB, fieldC, BitVec.ofNat_toNat, BitVec.setWidth_eq]
  rfl

/-- Every word is the format R word of its fields (R82). -/
theorem formatR_fields (w : CmdWord) :
    formatR (fieldOp w) (fieldQ w) (fieldX1 w) (fieldY1 w) (fieldX2 w) (fieldY2 w) = w := by
  apply BitVec.eq_of_getLsbD_eq
  intro i hi
  simp only [formatR, fieldOp, fieldQ, fieldX1, fieldY1, fieldX2, fieldY2, BitVec.ofNat_toNat, BitVec.setWidth_eq,
    BitVec.getLsbD_append, BitVec.getLsbD_extractLsb', BitVec.getLsbD_ofBool]
  grind

@[simp] theorem fieldRsv_formatS (op : BitVec 5) (q : Bool) (a b c : Nat) : fieldRsv (formatS op q a b c) = 0 := by
  apply BitVec.eq_of_getLsbD_eq
  intro i hi
  simp only [fieldRsv, BitVec.getLsbD_extractLsb', getLsbD_formatS]
  grind

theorem fieldA_lt (w : CmdWord) : fieldA w < 256 := BitVec.isLt _
theorem fieldB_lt (w : CmdWord) : fieldB w < 256 := BitVec.isLt _
theorem fieldC_lt (w : CmdWord) : fieldC w < 256 := BitVec.isLt _
theorem fieldX1_lt (w : CmdWord) : fieldX1 w < 128 := BitVec.isLt _
theorem fieldY1_lt (w : CmdWord) : fieldY1 w < 64 := BitVec.isLt _
theorem fieldX2_lt (w : CmdWord) : fieldX2 w < 128 := BitVec.isLt _
theorem fieldY2_lt (w : CmdWord) : fieldY2 w < 64 := BitVec.isLt _

/-- A byte field that is a single bit is that bit's number. -/
theorem toNat_getLsbD_of_lt_two {w : CmdWord} {lo : Nat} (h : (w.extractLsb' lo 8).toNat < 2) :
    (w.getLsbD lo).toNat = (w.extractLsb' lo 8).toNat := by
  have hbit : w.getLsbD lo = (w.extractLsb' lo 8).toNat.testBit 0 := by
    rw [BitVec.testBit_toNat, BitVec.getLsbD_extractLsb']
    simp
  rw [hbit]
  interval_cases (w.extractLsb' lo 8).toNat <;> rfl

/-! ### A row as a condition on the fields -/

/-- How many values the field `a` of a row's words may have: 256 for an operand, 1 for a must-be-zero field. -/
def sizeA : Row → Nat
  | .STPA | .NEWLINE | .CLEAR | .INVERT | .DISPLAY | .FLUSH | .CFG => 1
  | _ => 256

/-- How many values the field `b` of a row's words may have; 2 for the one-bit operand of STEP. -/
def sizeB : Row → Nat
  | .SETPX | .DRAWCH | .HLINE | .VLINE | .RECT => 256
  | .STEP => 2
  | _ => 1

/-- How many values the field `c` of a row's words may have; 2 for the one-bit operand of CFG. -/
def sizeC : Row → Nat
  | .DRVM | .MEC | .NRM | .SRV | .DRAWCH | .HLINE | .VLINE | .RECT => 256
  | .CFG => 2
  | _ => 1

/-- The row's format is S: its words have the reserved field (R81, R82). -/
def isFormatS : Row → Bool
  | .RECT => false
  | _ => true

/-- The mask of a row, field by field (R83). -/
theorem rowMask_eq (r : Row) :
    rowMask r = joined 31#5 (!hasQ r) (if isFormatS r then 3#2 else 0#2) (BitVec.ofNat 8 (256 - sizeA r))
      (BitVec.ofNat 8 (256 - sizeB r)) (BitVec.ofNat 8 (256 - sizeC r)) := by
  cases r <;> rfl

theorem rowMatch_eq (r : Row) : rowMatch r = joined (rowOp r) false 0#2 0#8 0#8 0#8 := by
  cases r <;> rfl

/-- The mask of a byte field that may have `n` values leaves nothing of it exactly when it has one of them. -/
theorem byte_and_mask_eq_zero {n : Nat} (hn : n = 1 ∨ n = 2 ∨ n = 256) (x : BitVec 8) :
    x &&& BitVec.ofNat 8 (256 - n) = 0#8 ↔ x.toNat < n := by
  revert x
  rcases hn with rfl | rfl | rfl <;> decide

theorem sizeA_cases (r : Row) : sizeA r = 1 ∨ sizeA r = 2 ∨ sizeA r = 256 := by cases r <;> decide
theorem sizeB_cases (r : Row) : sizeB r = 1 ∨ sizeB r = 2 ∨ sizeB r = 256 := by cases r <;> decide
theorem sizeC_cases (r : Row) : sizeC r = 1 ∨ sizeC r = 2 ∨ sizeC r = 256 := by cases r <;> decide

/-- The bits of the word other than its `op` are as the row wants them (R83, R87). -/
def OperandsOf (w : CmdWord) (r : Row) : Prop :=
  (hasQ r = true ∨ fieldQ w = false) ∧ (isFormatS r = true → fieldRsv w = 0) ∧ fieldA w < sizeA r ∧
  fieldB w < sizeB r ∧ fieldC w < sizeC r

/-- A word is in a row when it has the row's `op` and its other fields are as the row wants them. -/
theorem mask_eq_match_iff (w : CmdWord) (r : Row) :
    w &&& rowMask r = rowMatch r ↔ fieldOp w = rowOp r ∧ OperandsOf w r := by
  have hop : fieldOp w &&& 31#5 = fieldOp w := BitVec.and_allOnes
  have hq : (fieldQ w && !hasQ r) = false ↔ hasQ r = true ∨ fieldQ w = false := by
    cases fieldQ w <;> cases hasQ r <;> decide
  have hrsv : fieldRsv w &&& (if isFormatS r then 3#2 else 0#2) = 0#2 ↔ (isFormatS r = true → fieldRsv w = 0) := by
    generalize fieldRsv w = x
    cases isFormatS r <;> revert x <;> decide
  rw [rowMask_eq, rowMatch_eq, ← joined_fields w, joined_and, joined_inj, hop, hq, hrsv,
    byte_and_mask_eq_zero (sizeA_cases r), byte_and_mask_eq_zero (sizeB_cases r), byte_and_mask_eq_zero (sizeC_cases r)]
  simp only [joined_fields w]
  rfl

theorem inRow_iff (w : CmdWord) (r : Row) : inRow w r = true ↔ w &&& rowMask r = rowMatch r := by
  simp only [inRow, beq_iff_eq]

/-! ### The decoder -/

theorem rowOf_eq_some_iff {w : CmdWord} {r : Row} : rowOf w = some r ↔ fieldOp w = rowOp r := by
  refine ⟨fun h => ?_, Laws.Opcode.rowOf_of_op⟩
  have hop := List.find?_some h
  exact (beq_iff_eq.mp hop).symm

/-- The decoder's command is the one of the one row the word is in (R86). -/
theorem decode_eq_ok_iff {w : CmdWord} {i : Instr} :
    decode w = .ok i ↔ ∃ r, fieldOp w = rowOp r ∧ OperandsOf w r ∧ i = rowInstr w r := by
  have hrow : ∀ {r}, rowOf w = some r → (inRow w r = true ↔ OperandsOf w r) := fun h => by
    rw [inRow_iff, mask_eq_match_iff]
    exact and_iff_right (rowOf_eq_some_iff.mp h)
  simp only [← rowOf_eq_some_iff, decode]
  cases h : rowOf w with
  | none => simp
  | some r =>
    by_cases hr : OperandsOf w r
    · simp [hrow h, hr, eq_comm]
    · simp [hrow h, hr]

/-- A word of a row's `op` is illegal exactly when its other fields are not as the row wants them (R87). -/
theorem decode_eq_error_iff_of_op {w : CmdWord} {r : Row} (h : fieldOp w = rowOp r) :
    (∃ e, decode w = .error e) ↔ ¬ OperandsOf w r := by
  rw [← and_iff_right (a := fieldOp w = rowOp r) (b := OperandsOf w r) h, ← mask_eq_match_iff, ← inRow_iff]
  simp only [decode, rowOf_eq_some_iff.mpr h]
  cases inRow w r <;> simp

theorem decode_of_no_row {w : CmdWord} (h : ∀ r, fieldOp w ≠ rowOp r) : decode w = .error .unassignedOp := by
  have hnone : rowOf w = none := by
    cases hr : rowOf w with
    | none => rfl
    | some r => exact absurd (rowOf_eq_some_iff.mp hr) (h r)
  simp only [decode, hnone]

/-! ### The round trip -/

@[simp] theorem formatS_bit_eight (op : BitVec 5) (q : Bool) (a c : Nat) (v : Bool) :
    (formatS op q a v.toNat c)[8] = v := by
  rw [← BitVec.getLsbD_eq_getElem, getLsbD_formatS]
  cases v <;> rfl

@[simp] theorem formatS_bit_zero (op : BitVec 5) (q : Bool) (a b : Nat) (v : Bool) :
    (formatS op q a b v.toNat)[0] = v := by
  rw [← BitVec.getLsbD_eq_getElem, getLsbD_formatS]
  cases v <;> rfl

theorem fieldOp_encode (i : Instr) : fieldOp (encode i) = rowOp (Laws.Opcode.row i) := by
  cases i with
  | rect colour x1 y1 x2 y2 => exact fieldOp_formatR _ _ _ _ _ _
  | _ => exact fieldOp_formatS _ _ _ _ _

/-- The word of a command has the operand bits of its row. -/
theorem operandsOf_encode (i : Instr) : OperandsOf (encode i) (Laws.Opcode.row i) := by
  cases i with
  | rect colour x1 y1 x2 y2 => exact ⟨.inl rfl, nofun, fieldA_lt _, fieldB_lt _, fieldC_lt _⟩
  | step dir pair model =>
    cases model <;> simp [OperandsOf, encode, Laws.Opcode.row, hasQ, isFormatS, sizeA, sizeB, sizeC, Nat.mod_lt]
  | cfg dbl => cases dbl <;> simp [OperandsOf, encode, Laws.Opcode.row, hasQ, isFormatS, sizeA, sizeB, sizeC]
  | _ => simp [OperandsOf, encode, Laws.Opcode.row, hasQ, isFormatS, sizeA, sizeB, sizeC, Nat.mod_lt]

/-- The fields of the word of a well-formed command are its operands. -/
theorem rowInstr_encode {i : Instr} (h : WellFormed i = true) : rowInstr (encode i) (Laws.Opcode.row i) = i := by
  cases i <;> simp_all [WellFormed, fitsByte, fitsX, fitsY, encode, Laws.Opcode.row, rowInstr, Nat.mod_eq_of_lt]

/-- Every field holds what fits it. -/
theorem wellFormed_rowInstr (w : CmdWord) (r : Row) : WellFormed (rowInstr w r) = true := by
  cases r <;> simp [rowInstr, WellFormed, fitsByte, fitsX, fitsY, fieldA_lt, fieldB_lt, fieldC_lt, fieldX1_lt,
    fieldY1_lt, fieldX2_lt, fieldY2_lt]

/-- A word with the `op` and the operand bits of a row is the word of that row's command. -/
theorem encode_rowInstr {w : CmdWord} {r : Row} (hop : fieldOp w = rowOp r) (h : OperandsOf w r) :
    encode (rowInstr w r) = w := by
  obtain ⟨hq, hrsv, ha, hb, hc⟩ := h
  have hbit8 : fieldB w < 2 → (w.getLsbD 8).toNat = fieldB w := toNat_getLsbD_of_lt_two
  have hbit0 : fieldC w < 2 → (w.getLsbD 0).toNat = fieldC w := toNat_getLsbD_of_lt_two
  by_cases hr : r = .RECT
  · subst hr
    conv_rhs => rw [← formatR_fields w, hop]
    rfl
  · conv_rhs => rw [← formatS_fields (w := w) (hrsv (by cases r <;> simp_all [isFormatS])), hop]
    cases r <;> simp_all [rowInstr, encode, rowOp, hasQ, sizeA, sizeB, sizeC]

/-- Settles O1: the word has its row's `op`, that row's operand bits, and the operands in its fields. -/
theorem decodeOfEncode : Obligations.DecodeOfEncode := fun i h =>
  decode_eq_ok_iff.mpr ⟨Laws.Opcode.row i, fieldOp_encode i, operandsOf_encode i, (rowInstr_encode h).symm⟩

/-- Settles O2: the decoder gives the command of the row the word is in. -/
theorem encodeOfDecode : Obligations.EncodeOfDecode := by
  intro w i h
  obtain ⟨r, hop, hr, rfl⟩ := decode_eq_ok_iff.mp h
  exact ⟨encode_rowInstr hop hr, wellFormed_rowInstr w r⟩

/-- Settles O3: being in a row is the condition the decoder tests, and a row's `op` tells it from every other. -/
theorem oneRowDecides : Obligations.OneRowDecides := by
  simp only [Obligations.OneRowDecides, mask_eq_match_iff]
  refine ⟨fun w i => ?_, fun w r r' h h' => ?_⟩
  · simp only [decode_eq_ok_iff, and_assoc]
  · exact Option.some.inj ((rowOf_eq_some_iff.mpr h.1).symm.trans (rowOf_eq_some_iff.mpr h'.1))

/-- The values of `op` that no row has (R83). -/
theorem unassigned_of_no_row {op : BitVec 5} (h : ∀ r, op ≠ rowOp r) :
    op.toNat = 0 ∨ (8 ≤ op.toNat ∧ op.toNat ≤ 15) ∨ 28 ≤ op.toNat := by
  have hall : ∀ op : BitVec 5, (∀ r ∈ allRows, op ≠ rowOp r) →
      op.toNat = 0 ∨ (8 ≤ op.toNat ∧ op.toNat ≤ 15) ∨ 28 ≤ op.toNat := by decide
  exact hall op fun r _ => h r

/-- Settles O4: with a row's `op`, R87 lists what is not as the row wants it; the other `op`s are unassigned. -/
theorem illegalWordsListed : Obligations.IllegalWordsListed := by
  intro w
  by_cases hrow : ∃ r, fieldOp w = rowOp r
  · obtain ⟨r, hop⟩ := hrow
    have ha := fieldA_lt w
    have hb := fieldB_lt w
    have hc := fieldC_lt w
    rw [decode_eq_error_iff_of_op hop]
    simp only [hop, OperandsOf]
    cases r <;> simp [rowOp, hasQ, isFormatS, sizeA, sizeB, sizeC, ha, hb, hc] <;> grind
  · simp only [not_exists] at hrow
    exact iff_of_true ⟨_, decode_of_no_row hrow⟩ (.inl (unassigned_of_no_row hrow))

/-- Settles O6: the decoder computes. -/
theorem vectorWordsDecode : Obligations.VectorWordsDecode := ⟨rfl, rfl, rfl, rfl, rfl, rfl⟩

/-- The bits of a number of `n` bits shifted to its place in a word. -/
theorem getLsbD_ofNat_shiftLeft {v n : Nat} (hv : v < 2 ^ n) (lo : Nat) {i : Nat} (hi : i < 32) :
    (BitVec.ofNat 32 v <<< lo).getLsbD i = (decide (lo ≤ i ∧ i < lo + n) && v.testBit (i - lo)) := by
  have hzero : lo + n ≤ i → v.testBit (i - lo) = false := fun h =>
    Nat.testBit_lt_two_pow (Nat.lt_of_lt_of_le hv (Nat.pow_le_pow_right (by decide) (by omega)))
  simp only [BitVec.getLsbD_shiftLeft, BitVec.getLsbD_ofNat]
  grind

theorem testBit_toNat_bool (q : Bool) (i : Nat) : q.toNat.testBit i = (decide (i = 0) && q) := by
  rw [Bool.eq_iff_iff]
  cases q <;> simp [Nat.testBit_one_eq_true_iff_self_eq_zero]

/-- Settles O5, bit by bit: each bit of the word is a bit of one field, and every other shifted field has 0 there. -/
theorem wordIsShiftedFields : Obligations.WordIsShiftedFields := by
  have hop : ∀ op : BitVec 5, op.toNat < 2 ^ 5 := fun op => op.isLt
  have hq : ∀ q : Bool, q.toNat < 2 ^ 1 := Bool.toNat_lt
  have hlow : ∀ v, BitVec.ofNat 32 v = BitVec.ofNat 32 v <<< 0 := fun v => (BitVec.shiftLeft_zero _).symm
  constructor
  · intro op q a b c ha hb hc
    apply BitVec.eq_of_getLsbD_eq
    intro i hi
    rw [getLsbD_formatS, hlow c]
    simp only [BitVec.getLsbD_or, getLsbD_ofNat_shiftLeft (hop op) 27 hi, getLsbD_ofNat_shiftLeft (hq q) 26 hi,
      getLsbD_ofNat_shiftLeft (n := 8) ha 16 hi, getLsbD_ofNat_shiftLeft (n := 8) hb 8 hi,
      getLsbD_ofNat_shiftLeft (n := 8) hc 0 hi, BitVec.testBit_toNat, testBit_toNat_bool]
    grind
  · intro op q x1 y1 x2 y2 hx1 hy1 hx2 hy2
    apply BitVec.eq_of_getLsbD_eq
    intro i hi
    rw [getLsbD_formatR, hlow y2]
    simp only [BitVec.getLsbD_or, getLsbD_ofNat_shiftLeft (hop op) 27 hi, getLsbD_ofNat_shiftLeft (hq q) 26 hi,
      getLsbD_ofNat_shiftLeft (n := 7) hx1 19 hi, getLsbD_ofNat_shiftLeft (n := 6) hy1 13 hi,
      getLsbD_ofNat_shiftLeft (n := 7) hx2 6 hi, getLsbD_ofNat_shiftLeft (n := 6) hy2 0 hi, BitVec.testBit_toNat,
      testBit_toNat_bool]
    grind

end Sys2Proof
end

section
/-! PROOF. The PWM router (`40_pwm_router.md`): the channel writes of each command, said once, and what they leave in
the bank and in the trace (R115 to R128). -/

namespace Sys2Proof.Machine
open Sys2Proof.Config

/-! ### A list of channel writes -/

theorem writeAll_cons (w : Fin 16 × TickPair) (ws : List (Fin 16 × TickPair)) (s : State) :
    writeAll (w :: ws) s = writeAll ws (writeCh w.1 w.2.on w.2.off s) := rfl

theorem channel_writeAll_of_forall_ne {ws : List (Fin 16 × TickPair)} {c : Fin 16} (h : ∀ w ∈ ws, w.1 ≠ c) (s : State) :
    channel (writeAll ws s) c = channel s c := by
  induction ws generalizing s with
  | nil => rfl
  | cons w ws ih =>
    obtain ⟨hw, hws⟩ := List.forall_mem_cons.mp h
    rw [writeAll_cons, ih hws, channel_writeCh, if_neg (Ne.symm hw)]

/-- The last write of a channel stands. -/
theorem channel_writeAll_getElem {ws : List (Fin 16 × TickPair)} {k : Nat} (hk : k < ws.length)
    (hlast : ∀ k' (h : k' < ws.length), k < k' → ws[k'].1 ≠ ws[k].1) (s : State) :
    channel (writeAll ws s) ws[k].1 = ws[k].2 := by
  induction ws generalizing k s with
  | nil => cases hk
  | cons w ws ih =>
    rw [writeAll_cons]
    cases k with
    | zero =>
      have hrest : ∀ v ∈ ws, v.1 ≠ w.1 := by
        intro v hv
        obtain ⟨j, hj, rfl⟩ := List.getElem_of_mem hv
        exact hlast (j + 1) (by simpa using hj) (by omega)
      exact (channel_writeAll_of_forall_ne hrest _).trans (by rw [channel_writeCh, if_pos rfl]; rfl)
    | succ k =>
      exact ih (by simpa using hk) (fun k' h hkk' => hlast (k' + 1) (by simpa using h) (by omega)) _

/-- With one write for each channel, every write stands. -/
theorem channel_writeAll_of_nodup {ws : List (Fin 16 × TickPair)} (hnd : (ws.map Prod.fst).Nodup)
    {w : Fin 16 × TickPair} (hw : w ∈ ws) (s : State) : channel (writeAll ws s) w.1 = w.2 := by
  obtain ⟨k, hk, rfl⟩ := List.getElem_of_mem hw
  refine channel_writeAll_getElem hk (fun k' h hkk' heq => ?_) s
  have hinj := hnd.getElem_inj_iff (i := k') (hi := by simpa using h) (j := k) (hj := by simpa using hk)
  exact Nat.ne_of_gt hkk' (hinj.mp (by simpa using heq))

theorem channel_writeAll_ofFn {n : Nat} (f : Fin n → Fin 16 × TickPair) {k : Fin n}
    (hlast : ∀ k', k < k' → (f k').1 ≠ (f k).1) (s : State) :
    channel (writeAll (List.ofFn f) s) (f k).1 = (f k).2 := by
  have hk : k.val < (List.ofFn f).length := by simp
  simpa using channel_writeAll_getElem hk (fun k' h hkk' => by simpa using hlast ⟨k', by simpa using h⟩ hkk') s

/-- The events of a list of channel writes. -/
def writeEvents (ws : List (Fin 16 × TickPair)) : List Event := ws.map fun w => .pwmSet w.1 w.2.on w.2.off

/-- After the lazy initialisation a list of channel writes changes the bank and the trace alone (R50, R110). -/
theorem writeAll_pwmLazyInit (ws : List (Fin 16 × TickPair)) (s : State) :
    writeAll ws (pwmLazyInit s) = { s with
      bank := (writeAll ws (pwmLazyInit s)).bank, pwmInit := true
      trace := s.trace ++ pwmStart s ++ writeEvents ws } := by
  rw [writeAll_eq, pwmLazyInit_eq]
  rfl

theorem channel_pwmLazyInit (s : State) : channel (pwmLazyInit s) = channel s := channel_of_bank (pwmLazyInit_bank s)

/-! ### The writes of each command -/

/-- Two writes to a motor's channels, the positive one first (R51, R118). -/
def motorWrites (m : Motor) (pos neg : Tick) : List (Fin 16 × TickPair) :=
  [(⟨pp m, pp_lt m⟩, ⟨0, pos⟩), (⟨pn m, pn_lt m⟩, ⟨0, neg⟩)]

/-- The eight writes of four motors' actions, as pairs. -/
def routedWrites (action : Motor → Action) (d : Tick) : List (Fin 16 × TickPair) :=
  (routed action d).map fun w => (w.1, ⟨0, w.2⟩)

/-- A direction operand drives the positive channel: CW on motors 1 and 2, CCW on motors 3 and 4 (R114, R115). -/
def drivesPositive (dir : Bool) (m : Motor) : Bool := dir == decide (3 ≤ motorIndex m)

/-- The channel writes of a router command after the lazy initialisation (R115 to R128). -/
def routerWrites : Instr → List (Fin 16 × TickPair)
  | .drvm dir motor speed =>
    match motorOf motor with
    | none => []
    | some m => motorWrites m (if drivesPositive dir m then duty speed else 0)
        (if drivesPositive dir m then 0 else duty speed)
  | .mec code speed =>
    match mecDirOf code with
    | none => []
    | some d => routedWrites (mecRom Config.roms d) (duty speed)
  | .nrm code speed =>
    match nrmDirOf code with
    | none => []
    | some d => routedWrites (fun m => driveAction (Config.roms.nrm d m)) (duty speed)
  | .stpm motor =>
    match motorOf motor with
    | none => []
    | some m => motorWrites m 0 0
  | .stpa => routedWrites (fun _ => .Z) 0
  | .srv index angle =>
    if h : index + 7 < 16 then [(⟨index + 7, h⟩, ⟨0, BitVec.ofNat 12 (pulseTicks angle)⟩)] else []
  | .step dir pair model =>
    match stepPairOf pair with
    | none => []
    | some p => List.ofFn fun k =>
        let e := Config.roms.step (stepModelOf model) p dir k
        (e.ch, ⟨e.on, e.off⟩)
  | _ => []

theorem act_eq_writeAll (m : Motor) (action : Action) (t : Nat) (s : State) :
    act m action t s = writeAll (motorWrites m (BitVec.ofNat 12 (posTicks action t))
      (BitVec.ofNat 12 (negTicks action t))) s :=
  act_eq m action t s

theorem actAll_eq_writeAll (action : Motor → Action) (t : Nat) (s : State) :
    actAll action t s = writeAll (routedWrites action (BitVec.ofNat 12 t)) s := by
  rw [actAll_eq, writeAll, routedWrites, List.foldl_map]

theorem duty_eq (speed : Nat) : BitVec.ofNat 12 (scale speed).toNat = duty speed := by rw [scale_ofNat, duty]

theorem duty_zero : duty 0 = 0 := rfl

theorem dv_eq (m : Motor) (dir : Bool) : dv m dir = if drivesPositive dir m then 1 else -1 := by
  cases m <;> cases dir <;> rfl

/-- The sign of the scaled speed is the direction's, so the duty goes to that direction's channel (R115). -/
theorem driveMotor_eq_writeAll (m : Motor) (dir : Bool) (speed : Nat) (s : State) :
    driveMotor m dir speed s = writeAll (motorWrites m (if drivesPositive dir m then duty speed else 0)
      (if drivesPositive dir m then 0 else duty speed)) s := by
  have hscale : 0 ≤ scale speed := by rw [scale_eq_max_min]; omega
  rw [driveMotor, dv_eq, ← duty_eq]
  simp only [setCh_of_lt (pp_lt m), setCh_of_lt (pn_lt m)]
  cases drivesPositive dir m
  case true =>
    simp only [if_true, Int.mul_one]
    rw [if_pos hscale]
    rfl
  case false =>
    simp only [Bool.false_eq_true, if_false, Int.mul_neg, Int.mul_one, scale_neg, Int.neg_neg]
    split
    · have hzero : scale speed = 0 := by omega
      rw [hzero]
      rfl
    · rfl

/-- A router command is the lazy initialisation and then its channel writes (R110). -/
theorem exec_eq_writeAll {i : Instr} (hi : isRouter i = true) (s : State) :
    exec i s = .next (writeAll (routerWrites i) (pwmLazyInit s)) := by
  cases i with
  | drvm dir motor speed =>
    simp only [exec, execDrvm, routerWrites]
    cases motorOf motor with
    | none => rfl
    | some m => simp only [driveMotor_eq_writeAll]
  | mec code speed =>
    simp only [exec, execMec, driveMecanum, routerWrites]
    cases mecDirOf code with
    | none => rfl
    | some d => simp only [actAll_eq_writeAll, duty_eq]
  | nrm code speed =>
    simp only [exec, execNrm, driveNormal, routerWrites]
    cases nrmDirOf code with
    | none => rfl
    | some d => simp only [actAll_eq_writeAll, duty_eq]
  | stpm motor =>
    simp only [exec, execStpm, routerWrites]
    cases motorOf motor with
    | none => rfl
    | some m => simp only [act_eq_writeAll]; rfl
  | stpa => exact congrArg Host.Outcome.next (actAll_eq_writeAll _ 0 _)
  | srv index angle =>
    simp only [exec, execSrv, routerWrites, servoChBase]
    split
    case isTrue h => rw [setCh_of_lt h]; rfl
    case isFalse h => rw [setCh_of_not_lt h]; rfl
  | step dir pair model =>
    simp only [exec, execStep, driveStepper, routerWrites]
    cases stepPairOf pair with
    | none => rfl
    | some p => rfl
  | _ => cases hi

/-- A router command without writes, as on an invalid operand, runs the lazy initialisation alone (R113, R119, R122,
R127). -/
theorem exec_of_routerWrites_nil {i : Instr} (hi : isRouter i = true) (h : routerWrites i = []) (s : State) :
    exec i s = .next { s with pwmInit := true, trace := s.trace ++ pwmStart s } := by
  rw [exec_eq_writeAll hi, h, ← pwmLazyInit_eq]
  rfl

/-! ### Commands on four motors -/

/-- Eight writes to eight channels give the four motors their actions (R51, R118). -/
theorem routesTo_writeAll (action : Motor → Action) (d : Tick) (s : State) :
    RoutesTo action d s (writeAll (routedWrites action d) (pwmLazyInit s)) := by
  have hchannels : (routedWrites action d).map Prod.fst = [7, 6, 5, 4, 3, 2, 1, 0] := rfl
  refine ⟨writeAll_pwmLazyInit _ s, fun w hw => ?_, fun ch hch => ?_⟩
  · have hnd : ((routedWrites action d).map Prod.fst).Nodup := by rw [hchannels]; decide
    exact channel_writeAll_of_nodup hnd (List.mem_map_of_mem hw) _
  · rw [channel_writeAll_of_forall_ne, channel_pwmLazyInit]
    intro w hw heq
    have hmem : ch ∈ (routedWrites action d).map Prod.fst := heq ▸ List.mem_map_of_mem hw
    have hlow : ∀ c ∈ ([7, 6, 5, 4, 3, 2, 1, 0] : List (Fin 16)), c.val < 8 := by decide
    exact Nat.not_lt.mpr hch (hlow ch (hchannels ▸ hmem))

theorem exists_mecDirOf {code : Nat} (h1 : 1 ≤ code) (h9 : code ≤ 9) : ∃ d, mecDirOf code = some d := by
  interval_cases code <;> exact ⟨_, rfl⟩

theorem mecDirOf_eq_none {code : Nat} (h : code < 1 ∨ 9 < code) : mecDirOf code = none := by
  unfold mecDirOf
  split
  case h_10 => rfl
  all_goals omega

theorem exists_nrmDirOf {code : Nat} (h1 : 1 ≤ code) (h4 : code ≤ 4) : ∃ d, nrmDirOf code = some d := by
  interval_cases code <;> exact ⟨_, rfl⟩

theorem nrmDirOf_eq_none {code : Nat} (h : code < 1 ∨ 4 < code) : nrmDirOf code = none := by
  unfold nrmDirOf
  split
  case h_5 => rfl
  all_goals omega

theorem exec_mec {code : Nat} {d : MecDir} (hd : mecDirOf code = some d) (speed : Nat) (s : State) :
    exec (.mec code speed) s = .next (writeAll (routedWrites (mecRom Config.roms d) (duty speed)) (pwmLazyInit s)) := by
  rw [exec_eq_writeAll rfl, routerWrites, hd]

theorem exec_nrm {code : Nat} {d : NrmDir} (hd : nrmDirOf code = some d) (speed : Nat) (s : State) :
    exec (.nrm code speed) s = .next (writeAll
      (routedWrites (fun m => driveAction (Config.roms.nrm d m)) (duty speed)) (pwmLazyInit s)) := by
  rw [exec_eq_writeAll rfl, routerWrites, hd]

/-- Settles O27, from the eight writes of a row. -/
theorem mecRoutesFourMotors : Obligations.MecRoutesFourMotors := by
  refine fun code speed s => ⟨fun h1 h9 => ?_, fun h => ?_⟩
  · obtain ⟨d, hd⟩ := exists_mecDirOf h1 h9
    exact ⟨d, _, hd, exec_mec hd speed s, routesTo_writeAll _ _ s⟩
  · exact exec_of_routerWrites_nil rfl (by rw [routerWrites, mecDirOf_eq_none h]) s

/-- Settles O28: the row of code 2 is written out in `mecRom`. -/
theorem mecForwardRow : Obligations.MecForwardRow := by
  intro speed s
  have hrow : routed (mecRom Config.roms .forward) (duty speed) =
      [(7, duty speed), (6, 0), (5, duty speed), (4, 0), (3, 0), (2, duty speed), (1, 0), (0, duty speed)] := rfl
  obtain ⟨hframe, hwritten, hservo⟩ := routesTo_writeAll (mecRom Config.roms .forward) (duty speed) s
  rw [hrow] at hwritten
  refine ⟨_, exec_mec rfl speed s, fun ch hch => hwritten (ch, duty speed) ?_, fun ch hch => hwritten (ch, 0) ?_,
    hservo, ?_⟩
  · revert ch; simp
  · revert ch; simp
  · rw [hframe]

/-- Settles O29, from the eight writes of a row. -/
theorem nrmRoutesFourMotors : Obligations.NrmRoutesFourMotors := by
  refine fun code speed s => ⟨fun h1 h4 => ?_, fun h => ?_⟩
  · obtain ⟨d, hd⟩ := exists_nrmDirOf h1 h4
    exact ⟨d, _, hd, exec_nrm hd speed s, routesTo_writeAll _ _ s⟩
  · exact exec_of_routerWrites_nil rfl (by rw [routerWrites, nrmDirOf_eq_none h]) s

/-- Settles O32: the eight writes cover channels 0 to 7. -/
theorem stpaStopsAllMotors : Obligations.StpaStopsAllMotors := by
  intro s
  have hroutes := routesTo_writeAll (fun _ => .Z) 0 s
  have hcovered : ∀ ch : Fin 16, ch.val ≤ 7 → (ch, (0 : Tick)) ∈ routed (fun _ => .Z) 0 := by decide
  exact ⟨_, exec_eq_writeAll rfl s, hroutes, fun ch hch => hroutes.2.1 _ (hcovered ch hch)⟩

/-! ### Commands on one motor -/

theorem motorOf_eq_none {index : Nat} (h : index < 1 ∨ 4 < index) : motorOf index = none := by
  cases hm : motorOf index with
  | none => rfl
  | some m =>
    have hbounds := motorIndex_bounds m
    rw [motorOf_eq_some_iff.mp hm] at hbounds
    omega

/-- Settles O26, from the two writes to the motor's channels. -/
theorem drvmDrivesOneMotor : Obligations.DrvmDrivesOneMotor := by
  refine fun dir motor speed s => ⟨fun h1 h4 => ?_, fun h => ?_⟩
  · obtain ⟨m, hm⟩ := exists_motorOf h1 h4
    obtain rfl := motorOf_eq_some_iff.mp hm
    have hp : Fin.ofNat 16 ((4 - motorIndex m) * 2 + 1) = ⟨pp m, pp_lt m⟩ := by cases m <;> rfl
    have hn : Fin.ofNat 16 ((4 - motorIndex m) * 2) = ⟨pn m, pn_lt m⟩ := by cases m <;> rfl
    have hne : pp m ≠ pn m := by cases m <;> decide
    refine ⟨_, exec_eq_writeAll rfl s, ?_⟩
    simp only [routerWrites, hm, hp, hn]
    refine ⟨writeAll_pwmLazyInit _ s, ?_, ?_, fun ch hcp hcn => ?_⟩
    · simp [motorWrites, writeAll, channel_writeCh, hne, drivesPositive]
    · simp [motorWrites, writeAll, channel_writeCh, drivesPositive]
    · simp [motorWrites, writeAll, channel_writeCh, channel_pwmLazyInit, hcp, hcn]
  · exact exec_of_routerWrites_nil rfl (by rw [routerWrites, motorOf_eq_none h]) s

/-- Settles O31: both make the same two writes, as a speed of 0 has duty 0. -/
theorem stpmIsDrvmAtZero : Obligations.StpmIsDrvmAtZero := by
  intro motor dir s
  rw [exec_eq_writeAll rfl, exec_eq_writeAll rfl]
  simp only [routerWrites, duty_zero, ite_self]

/-- Settles O30, as DRVM with speed 0. -/
theorem stpmStopsOneMotor : Obligations.StpmStopsOneMotor := by
  intro motor s
  have hdrvm := drvmDrivesOneMotor false motor 0 s
  simpa only [stpmIsDrvmAtZero motor false s, duty_zero, ite_self] using hdrvm

/-! ### Servos and steppers -/

/-- Settles O33: from index 9 on the channel does not exist. -/
theorem srvWritesOneServo : Obligations.SrvWritesOneServo := by
  refine fun index angle s => ⟨fun h8 => ?_, fun h9 => ?_⟩
  · have hlt : index + 7 < 16 := by omega
    have hch : Fin.ofNat 16 (index + 7) = ⟨index + 7, hlt⟩ := Fin.ext (Nat.mod_eq_of_lt hlt)
    have hoff : (min angle 180 * 10 + 600) * 4096 / 20000 = pulseTicks angle := by
      rw [pulseTicks_eq]
      congr 4
      omega
    refine ⟨_, exec_eq_writeAll rfl s, ?_⟩
    simp only [routerWrites, hch, hoff, dif_pos hlt]
    refine ⟨writeAll_pwmLazyInit _ s, ?_, fun c hc => ?_⟩
    · simp [writeAll, channel_writeCh]
    · simp [writeAll, channel_writeCh, channel_pwmLazyInit, hc]
  · exact exec_of_routerWrites_nil rfl (by rw [routerWrites, dif_neg (by omega)]) s

theorem stepPairOf_eq_some {pair : Nat} (h1 : 1 ≤ pair) (h2 : pair ≤ 2) :
    stepPairOf pair = some (if pair = 1 then .p1 else .p2) := by
  interval_cases pair <;> rfl

theorem stepPairOf_eq_none {pair : Nat} (h : pair < 1 ∨ 2 < pair) : stepPairOf pair = none := by
  unfold stepPairOf
  split
  case h_3 => rfl
  all_goals omega

/-- Settles O34: of the four writes of a waveform the last of each channel stands. -/
theorem stepWritesFourPhases : Obligations.StepWritesFourPhases := by
  refine fun dir pair model s => ⟨fun h1 h2 => ?_, fun h => ?_⟩
  · refine ⟨_, exec_eq_writeAll rfl s, ?_⟩
    simp only [routerWrites, stepPairOf_eq_some h1 h2, stepModelOf]
    generalize Config.roms.step (if model then .m42 else .m28) (if pair = 1 then .p1 else .p2) dir = e
    refine ⟨writeAll_pwmLazyInit _ s, fun k hlast => ?_, fun ch hch => ?_⟩
    · exact channel_writeAll_ofFn _ hlast _
    · rw [channel_writeAll_of_forall_ne (List.forall_mem_ofFn_iff.mpr hch), channel_pwmLazyInit]
  · exact exec_of_routerWrites_nil rfl (by rw [routerWrites, stepPairOf_eq_none h]) s

/-! ### The range of a write -/

theorem mem_routedWrites {action : Motor → Action} {d : Tick} {w : Fin 16 × TickPair} (h : w ∈ routedWrites action d) :
    w.2 = ⟨0, d⟩ ∨ w.2 = ⟨0, 0⟩ := by
  have hpick : ∀ (p : Prop) [Decidable p], (if p then d else 0) = d ∨ (if p then d else 0) = 0 := fun p _ => by
    split <;> simp
  obtain ⟨v, hv, rfl⟩ := List.mem_map.mp h
  suffices v.2 = d ∨ v.2 = 0 from this.imp (by rintro rfl; rfl) (by rintro h; rw [h])
  simp only [routed, List.mem_cons, List.not_mem_nil, or_false] at hv
  rcases hv with rfl | rfl | rfl | rfl | rfl | rfl | rfl | rfl <;> exact hpick _

theorem mem_motorWrites {m : Motor} {pos neg : Tick} {w : Fin 16 × TickPair} (h : w ∈ motorWrites m pos neg) :
    w.2 = ⟨0, pos⟩ ∨ w.2 = ⟨0, neg⟩ := by
  simp only [motorWrites, List.mem_cons, List.not_mem_nil, or_false] at h
  exact h.imp (congrArg Prod.snd) (congrArg Prod.snd)

/-- A pair a router command other than STEP may write: on-tick 0, off-tick at most 4080 (R130). -/
def InRange (p : TickPair) : Prop := p.on = 0 ∧ p.off.toNat ≤ 4080

theorem inRange_zero : InRange ⟨0, 0⟩ := ⟨rfl, by decide⟩

theorem inRange_duty {speed : Nat} (h : fitsByte speed = true) : InRange ⟨0, duty speed⟩ := by
  have hspeed : speed < 256 := by simpa [fitsByte] using h
  refine ⟨rfl, ?_⟩
  rw [duty, BitVec.toNat_ofNat]
  omega

theorem inRange_pulse (a : Int) : InRange ⟨0, BitVec.ofNat 12 (pulseTicks a)⟩ := by
  have hle : pulseTicks a ≤ 4080 := by
    rw [pulseTicks_eq]
    omega
  refine ⟨rfl, ?_⟩
  rw [BitVec.toNat_ofNat]
  exact (Nat.mod_le _ _).trans hle

theorem inRange_of_routed {action : Motor → Action} {d : Tick} (hd : InRange ⟨0, d⟩) :
    ∀ w ∈ routedWrites action d, InRange w.2 := fun _ hw => by
  rcases mem_routedWrites hw with h | h <;> rw [h]
  · exact hd
  · exact inRange_zero

theorem inRange_of_motor {m : Motor} {pos neg : Tick} (hp : InRange ⟨0, pos⟩) (hn : InRange ⟨0, neg⟩) :
    ∀ w ∈ motorWrites m pos neg, InRange w.2 := fun _ hw => by
  rcases mem_motorWrites hw with h | h <;> rw [h] <;> assumption

/-- Every write of a well-formed router command other than STEP is in range: duties and pulses are (R130). -/
theorem routerWrites_inRange {i : Instr} (hwf : WellFormed i = true) (hi : ∀ dir pair model, i ≠ .step dir pair model) :
    ∀ w ∈ routerWrites i, InRange w.2 := by
  have hnil : ∀ w ∈ ([] : List (Fin 16 × TickPair)), InRange w.2 := nofun
  cases i with
  | drvm dir motor speed =>
    have hd := inRange_duty (Bool.and_eq_true_iff.mp hwf).2
    simp only [routerWrites]
    split
    · exact hnil
    · cases drivesPositive dir _
      · exact inRange_of_motor inRange_zero hd
      · exact inRange_of_motor hd inRange_zero
  | mec code speed =>
    have hd := inRange_duty (Bool.and_eq_true_iff.mp hwf).2
    simp only [routerWrites]
    split
    · exact hnil
    · exact inRange_of_routed hd
  | nrm code speed =>
    have hd := inRange_duty (Bool.and_eq_true_iff.mp hwf).2
    simp only [routerWrites]
    split
    · exact hnil
    · exact inRange_of_routed hd
  | stpm motor =>
    simp only [routerWrites]
    split
    · exact hnil
    · exact inRange_of_motor inRange_zero inRange_zero
  | stpa => exact inRange_of_routed inRange_zero
  | srv index angle =>
    simp only [routerWrites]
    split
    · exact List.forall_mem_singleton.mpr (inRange_pulse angle)
    · exact hnil
  | step dir pair model => exact absurd rfl (hi dir pair model)
  | _ => exact hnil

/-- Settles O22, from the range of each write. -/
theorem routerWritesStayInRange : Obligations.RouterWritesStayInRange := by
  intro i s t hr hwf hi ht
  rw [exec_eq_writeAll hr, writeAll_pwmLazyInit] at ht
  injection ht with ht
  subst ht
  refine ⟨writeEvents (routerWrites i), rfl, fun e he => ?_⟩
  obtain ⟨w, hw, rfl⟩ := List.mem_map.mp he
  obtain ⟨hon, hoff⟩ := routerWrites_inRange hwf hi w hw
  exact ⟨w.1, w.2.off, by rw [hon], hoff⟩

end Sys2Proof.Machine
end

section
/-! PROOF. Pixels and glyphs (`20_memory.md` section 3, `41_renderer_pixel_text.md` sections 2 and 3): SetPixel, SETPX
and DRAWCH inside the picture and outside (R56, R57, R152 to R155). -/

namespace Sys2Proof.Machine
open Sys2Proof.Config

/-! ### One pixel -/

/-- In `t` the pixel `(x, y)` is `v`; the other seven bits of its byte and every other byte are as in `s` (R57). -/
def PutsPixel (x y : Nat) (v : Bool) (s t : State) : Prop :=
  (fbByte t (fbIndex x (y / 8))).getLsbD (y % 8) = v ∧
  (∀ n, n < 8 → n ≠ y % 8 →
    (fbByte t (fbIndex x (y / 8))).getLsbD n = (fbByte s (fbIndex x (y / 8))).getLsbD n) ∧
  BytesSameExcept (· = fbIndex x (y / 8)) s t

theorem putsPixel_plot {x y : Nat} (hx : x ≤ 127) (hy : y ≤ 63) (v : Bool) (s : State) :
    PutsPixel x y v s (plot x y v s) := by
  have hbit : ∀ n, n < 8 → (fbByte (plot x y v s) (fbIndex x (y / 8))).getLsbD n =
      if n = y % 8 then v else (fbByte s (fbIndex x (y / 8))).getLsbD n := fun n hn => by
    rw [fbByte_plot_self (by omega) (by omega), getLsbD_putBit _ (by omega) hn]
  refine ⟨?_, fun n hn hne => ?_, fun i hi => fbByte_plot_of_ne x y v s hi⟩
  · rw [hbit _ (by omega), if_pos rfl]
  · rw [hbit n hn, if_neg hne]

theorem setPixel_eq_fault {x y : Nat} (h : 127 < x ∨ 63 < y) (v : Bool) (s : State) :
    setPixel x y v s = .fault .fbOob := if_pos h

theorem setPixel_eq_next {x y : Nat} (hx : x ≤ 127) (hy : y ≤ 63) (v : Bool) (s : State) :
    setPixel x y v s = .next (plot x y v s) := if_neg (by omega)

/-- A pixel set and then cleared: the bit is 0, the other seven are as at first, so the byte is restored exactly when
the bit was 0 (R57). -/
theorem set_then_clear {x y : Nat} {s t u : State} (hset : PutsPixel x y true s t) (hclear : PutsPixel x y false t u) :
    (fbByte u (fbIndex x (y / 8))).getLsbD (y % 8) = false ∧
    (∀ n, n < 8 → n ≠ y % 8 →
      (fbByte u (fbIndex x (y / 8))).getLsbD n = (fbByte s (fbIndex x (y / 8))).getLsbD n) ∧
    (fbByte u (fbIndex x (y / 8)) = fbByte s (fbIndex x (y / 8)) ↔
      (fbByte s (fbIndex x (y / 8))).getLsbD (y % 8) = false) := by
  obtain ⟨-, hset, -⟩ := hset
  obtain ⟨hbit, hclear, -⟩ := hclear
  have hother : ∀ n, n < 8 → n ≠ y % 8 →
      (fbByte u (fbIndex x (y / 8))).getLsbD n = (fbByte s (fbIndex x (y / 8))).getLsbD n :=
    fun n hn hne => (hclear n hn hne).trans (hset n hn hne)
  refine ⟨hbit, hother, fun heq => heq ▸ hbit, fun hzero => BitVec.eq_of_getLsbD_eq fun n hn => ?_⟩
  by_cases hne : n = y % 8
  · rw [hne, hbit, hzero]
  · exact hother n hn hne

/-- Settles O38, from what the clipped pixel write does inside the picture. -/
theorem setPixelWritesOneBit : Obligations.SetPixelWritesOneBit := by
  refine fun x y s => ⟨fun h v => setPixel_eq_fault h v s, fun hx hy v => ?_, fun hx hy => ?_⟩
  · exact ⟨_, setPixel_eq_next hx hy v s, (OnlyPayload.plot x y v s).1, putsPixel_plot hx hy v s⟩
  · exact ⟨_, _, setPixel_eq_next hx hy true s, setPixel_eq_next hx hy false _,
      set_then_clear (putsPixel_plot hx hy true s) (putsPixel_plot hx hy false _)⟩

theorem exec_setpx_next {x y : Nat} (hx : x ≤ 127) (hy : y ≤ 63) (colour : Bool) (s : State) :
    exec (.setpx colour x y) s = .next (streamAt x (y / 8) 1 (plot x y colour (dispLazyInit s))) := by
  rw [exec, execSetpx, setPixel_eq_next hx hy, andThen_of_next]

/-- Settles O36, from the one pixel written and the one byte streamed. -/
theorem setpxSetsOnePixel : Obligations.SetpxSetsOnePixel := by
  intro colour x y s hx hy
  have hput : PutsPixel x y colour s (streamAt x (y / 8) 1 (plot x y colour (dispLazyInit s))) := by
    simpa only [PutsPixel, BytesSameExcept, fbByte_dispLazyInit, fbByte_streamAt] using
      putsPixel_plot hx hy colour (dispLazyInit s)
  exact ⟨_, exec_setpx_next hx hy colour s, (OnlyPayload.plot x y colour (dispLazyInit s)).emit_after_init _, hput⟩

theorem exec_setpx_fault {x y : Nat} (h : 127 < x ∨ 63 < y) (colour : Bool) (s : State) :
    exec (.setpx colour x y) s = .fault .fbOob := by
  rw [exec, execSetpx, setPixel_eq_fault h]
  rfl

/-- Settles O37. -/
theorem setpxOutsideFaults : Obligations.SetpxOutsideFaults := fun colour _ _ s h => exec_setpx_fault h colour s

/-! ### Glyphs -/

theorem exec_drawch_single {s : State} (hz : s.cfgZoom = false) (hd : s.cfgDbl = false) {row col : Nat} (hr : row ≤ 7)
    (hc : col ≤ 122) (colour : Bool) (ch : Nat) :
    exec (.drawch colour ch col row) s =
      .next (streamAt col row 6 (singleGlyph Config.roms ch col row colour (dispLazyInit s))) := by
  have hfits : ¬ (row > 7 ∨ col > 122) := by omega
  simp [exec, execDrawch, drawChar_eq, hz, hd, hfits]

theorem exec_drawch_double {s : State} (hz : s.cfgZoom = false) (hd : s.cfgDbl = true) {row col : Nat} (hr : row ≤ 6)
    (hc : col ≤ 118) (colour : Bool) (ch : Nat) :
    exec (.drawch colour ch col row) s = .next (doubleGlyph Config.roms ch col row colour (dispLazyInit s)) := by
  have hfits : ¬ (row > 6 ∨ col > 118) := by omega
  simp [exec, execDrawch, drawChar_eq, hz, hd, hfits]

theorem glyphLeaves_single {col row : Nat} : glyphLeaves false col row = true ↔ 7 < row ∨ 122 < col := by
  simp [glyphLeaves, or_comm]

theorem glyphLeaves_double {col row : Nat} : glyphLeaves true col row = true ↔ 6 < row ∨ 118 < col := by
  simp [glyphLeaves, or_comm]

/-- A glyph that leaves the picture, in the terms of R211, is the fault (R56, R154, R155). -/
theorem exec_drawch_fault {s : State} (hz : s.cfgZoom = false) {row col : Nat}
    (h : glyphLeaves s.cfgDbl col row = true) (colour : Bool) (ch : Nat) :
    exec (.drawch colour ch col row) s = .fault .fbOob := by
  cases hd : s.cfgDbl with
  | false =>
    have hout : row > 7 ∨ col > 122 := glyphLeaves_single.mp (hd ▸ h)
    simp [exec, execDrawch, drawChar_eq, hz, hd, hout]
  | true =>
    have hout : row > 6 ∨ col > 118 := glyphLeaves_double.mp (hd ▸ h)
    simp [exec, execDrawch, drawChar_eq, hz, hd, hout]

theorem exec_drawch_refused {s : State} (hz : s.cfgZoom = true) (colour : Bool) (ch col row : Nat) :
    exec (.drawch colour ch col row) s = .refused .zoomConfigured := by
  simp [exec, execDrawch, drawChar_eq, hz]

/-- The two ways of leaving the picture that the statements name are the one of R211. -/
theorem glyphLeaves_of_outside {dbl : Bool} {col row : Nat}
    (h : (dbl = false ∧ (7 < row ∨ 122 < col)) ∨ (dbl = true ∧ (6 < row ∨ 118 < col))) :
    glyphLeaves dbl col row = true := by
  rcases h with ⟨rfl, h⟩ | ⟨rfl, h⟩
  · exact glyphLeaves_single.mpr h
  · exact glyphLeaves_double.mpr h

/-- Settles O41. -/
theorem drawchOutsideFaults : Obligations.DrawchOutsideFaults := fun colour ch _ _ _ hz h =>
  exec_drawch_fault hz (glyphLeaves_of_outside h) colour ch

/-- Column `k` of a glyph's cell (R154). -/
theorem glyphCell_getElem? (R : Roms) (ch : Nat) (q : Bool) (k : Fin 5) :
    (glyphCell R ch q)[k.val]? = some (R.font (glyphIndex ch k) ^^^ inversion q) := by
  fin_cases k <;> rfl

/-- A single-size glyph replaces the six bytes of its cell and no other (R154). -/
theorem fbByte_singleGlyph (R : Roms) (ch col row : Nat) (q : Bool) (s : State) (j : Nat) :
    fbByte (singleGlyph R ch col row q s) j =
      if fbIndex col row ≤ j ∧ j < fbIndex col row + 6 then (glyphCell R ch q)[j - fbIndex col row]?.getD 0
      else fbByte s j :=
  fbByte_fbWriteList (fbIndex col row) (fbIndex_ne_zero col row) (glyphCell R ch q) s j

/-- Settles O39, byte by byte of the glyph's cell. -/
theorem drawchSingleCopiesGlyph : Obligations.DrawchSingleCopiesGlyph := by
  intro colour ch col row s hz hd hr hc
  have hcell := fbByte_singleGlyph Config.roms ch col row colour (dispLazyInit s)
  refine ⟨_, exec_drawch_single hz hd hr hc colour ch,
    (OnlyPayload.singleGlyph Config.roms ch colour (dispLazyInit s) hr hc).emit_after_init _, fun k => ?_, ?_, ?_⟩
  · rw [fbByte_streamAt, hcell, if_pos ⟨Nat.le_add_right _ _, Nat.add_lt_add_left (by omega) _⟩]
    simp only [fbIndex, fbW, Nat.add_sub_cancel_left, glyphCell_getElem?, Option.getD_some]
    rfl
  · rw [fbByte_streamAt, hcell, if_pos ⟨Nat.le_add_right _ _, Nat.add_lt_add_left (by omega) _⟩]
    simp only [fbIndex, fbW, Nat.add_sub_cancel_left]
    rfl
  · intro j hj
    have hout : ¬ (fbIndex col row ≤ j ∧ j < fbIndex col row + 6) := hj
    rw [fbByte_streamAt, hcell, if_neg hout, fbByte_dispLazyInit]

/-- A double-size glyph draws each font bit as a block of its region and nothing else (R155). -/
theorem pixel_doubleGlyph (R : Roms) (ch col row : Nat) (q : Bool) (s : State) {x y : Nat} (hx : x < 128)
    (hy : y < 64) :
    pixel (doubleGlyph R ch col row q s) x y =
      if col ≤ x ∧ x < col + 10 ∧ row * 8 ≤ y ∧ y < row * 8 + 16 then
        (glyphByte R ch (Fin.ofNat 5 ((x - col) / 2))).getLsbD ((y - row * 8) / 2) ^^ !q
      else pixel s x y :=
  pixel_blockGrid col (row * 8) (fun i j => (glyphByte R ch i).getLsbD j ^^ !q) s hx hy

/-- A change of the payload alone leaves the header and what lies past the buffer. -/
theorem OnlyPayload.bytesSameExcept {s t : State} (h : OnlyPayload s t) :
    BytesSameExcept (fun j => 1 ≤ j ∧ j ≤ 1024) s t := fun j hj => h.2 j (by omega)

/-- Settles O40, from the pixels of the grid of blocks. -/
theorem drawchDoubleDrawsBlocks : Obligations.DrawchDoubleDrawsBlocks := by
  intro colour ch col row s hz hd hr hc
  have hdraws := OnlyPayload.doubleGlyph Config.roms ch col row colour (dispLazyInit s)
  refine ⟨_, exec_drawch_double hz hd hr hc colour ch, hdraws.after_init, fun x y hx hy => ?_, ?_⟩
  · rw [pixel_doubleGlyph _ _ _ _ _ _ hx hy, pixel_of_fbByte (fbByte_dispLazyInit s)]
    rfl
  · simpa only [BytesSameExcept, fbByte_dispLazyInit] using hdraws.bytesSameExcept

end Sys2Proof.Machine
end

section
/-! PROOF. The two assignments of a whole payload against the loops the spec writes (R158, R185): a loop of writes is
known by the bytes it leaves, and equal bytes in the canonical form are equal data. -/

namespace Sys2Proof.Machine

/-! ### Reading after any write in the canonical form -/

theorem Memory.lookup_erase {m : Memory} (h : m.wf) (i j : Nat) :
    (Memory.erase i m).lookup j = if i = j then none else m.lookup j := by
  induction m with
  | nil => simp [Memory.erase, Memory.lookup]
  | cons c m ih =>
    obtain ⟨k, w⟩ := c
    obtain ⟨hlt, -, hm⟩ := Memory.wf_cons.mp h
    simp only [Memory.erase]
    split
    case isTrue hik =>
      subst hik
      by_cases hij : i = j
      · subst hij
        rw [if_pos rfl, Memory.lookup_none_of_lt hlt]
      · rw [if_neg hij, Memory.lookup, if_neg hij]
    case isFalse hik =>
      simp only [Memory.lookup, ih hm]
      by_cases hkj : k = j
      · rw [if_pos hkj, if_pos hkj, if_neg (hkj ▸ hik)]
      · rw [if_neg hkj, if_neg hkj]

/-- In the canonical form every index, the header's too, reads as the value just written (R54, R55). -/
theorem Memory.read?_write_of_wf {m : Memory} (h : m.wf) (i j : Nat) (v : Byte) :
    (m.write i v).read? j = if i = j then some v else m.read? j := by
  simp only [Memory.write]
  split
  case isTrue hv =>
    simp only [Memory.read?, Memory.lookup_erase h]
    split
    case isTrue hij => rw [Option.none_or, ← hij, hv]
    case isFalse => rfl
  case isFalse =>
    simp only [Memory.read?, Memory.lookup_insert]
    split <;> simp

theorem Memory.read?_of_gt {m : Memory} (h : m.wf) {i : Nat} (hi : 1024 < i) : m.read? i = none := by
  have hlookup : m.lookup i = none := by
    induction m with
    | nil => rfl
    | cons c m ih =>
      obtain ⟨k, w⟩ := c
      obtain ⟨-, ⟨hk, -⟩, hm⟩ := Memory.wf_cons.mp h
      have hne : k ≠ i := by
        simp only at hk
        omega
      rw [Memory.lookup, if_neg hne, ih hm]
  rw [Memory.read?, hlookup, Option.none_or, Memory.unlisted, if_neg (by omega)]

theorem Memory.read?_ofPayload (f : Nat → Byte) (i : Nat) :
    (Memory.ofPayload f).read? i = if i = 0 then some 0x40 else if i ≤ 1024 then some (f i) else none := by
  rw [Memory.read?, Memory.lookup_ofPayload, Memory.unlisted]
  by_cases h0 : i = 0
  · rw [if_neg (by omega), if_pos h0, if_pos h0, Option.none_or]
  · by_cases h1 : i ≤ 1024
    · rw [if_pos (by omega), if_neg h0, if_neg h0, if_pos h1, Option.some_or]
    · rw [if_neg (by omega), if_neg h0, if_neg h0, if_neg h1, Option.none_or]

/-! ### A loop of writes -/

/-- Two changes of the framebuffer alone are one. -/
theorem onlyFb_trans {s t u : State} (h : t = { s with fb := t.fb }) (k : u = { t with fb := u.fb }) :
    u = { s with fb := u.fb } := by
  rw [k, h]

/-- Writes at the indices of a list in order, each of a value computed from the state at its turn. -/
def writeLoop (g : State → Nat → Byte) (l : List Nat) (s : State) : State := l.foldl (fun s i => fbWrite i (g s i) s) s

theorem writeLoop_cons (g : State → Nat → Byte) (i : Nat) (l : List Nat) (s : State) :
    writeLoop g (i :: l) s = writeLoop g l (fbWrite i (g s i) s) := rfl

theorem fbWrite_frame (i : Nat) (v : Byte) (s : State) : fbWrite i v s = { s with fb := (fbWrite i v s).fb } := rfl

theorem writeLoop_frame (g : State → Nat → Byte) (l : List Nat) (s : State) :
    writeLoop g l s = { s with fb := (writeLoop g l s).fb } := by
  induction l generalizing s with
  | nil => rfl
  | cons i l ih => rw [writeLoop_cons, ih]; rfl

theorem wf_writeLoop (g : State → Nat → Byte) {l : List Nat} (hl : ∀ i ∈ l, i ≤ 1024) {s : State} (h : s.fb.wf) :
    (writeLoop g l s).fb.wf := by
  induction l generalizing s with
  | nil => exact h
  | cons i l ih =>
    obtain ⟨hi, hl⟩ := List.forall_mem_cons.mp hl
    exact ih hl (wf_fbWrite h hi _)

/-- An ascending loop whose values do not depend on the bytes already passed leaves at each index the value the first
state gives for it. -/
theorem read?_writeLoop {g : State → Nat → Byte} (hg : ∀ s i v j, i ≠ 0 → i < j → g (fbWrite i v s) j = g s j) {a : Nat}
    (ha : a ≠ 0) (n : Nat) (s : State) (j : Nat) :
    (writeLoop g (List.range' a n) s).fb.read? j =
      if a ≤ j ∧ j < a + n then some (g s j) else s.fb.read? j := by
  induction n generalizing a s with
  | zero => rw [if_neg (by omega)]; rfl
  | succ n ih =>
    rw [List.range'_succ, writeLoop_cons, ih (by omega), fbWrite_fb, Memory.read?_write _ ha]
    by_cases hj : a + 1 ≤ j ∧ j < a + 1 + n
    · rw [if_pos hj, if_pos (by omega), hg _ _ _ _ ha (by omega)]
    · rw [if_neg hj]
      by_cases haj : a = j
      · rw [if_pos haj, if_pos (by omega), haj]
      · rw [if_neg haj, if_neg (by omega)]

/-- A payload given at once is a state whose framebuffer is in the canonical form and reads the same. -/
theorem ofPayload_eq_of_read? {s t : State} {f : Nat → Byte} (ht : t = { s with fb := t.fb }) (hwf : t.fb.wf)
    (hread : ∀ i, t.fb.read? i = if i = 0 then some 0x40 else if i ≤ 1024 then some (f i) else none) :
    { s with fb := Memory.ofPayload f } = t := by
  have hfb : t.fb = Memory.ofPayload f :=
    Memory.ext_of_read? hwf (Memory.wf_ofPayload f) fun i => (hread i).trans (Memory.read?_ofPayload f i).symm
  rw [ht, hfb]

/-! ### CLEAR and the scroll -/

/-- The zero fill of a run of bytes (R158, R185). -/
def zeroFill : State → Nat → Byte := fun _ _ => 0x00

/-- The copy of a page's byte from the page below it (R158). -/
def pageBelow : State → Nat → Byte := fun s i => fbByte s (i + 128)

theorem mem_range'_le {a n i : Nat} (h : a + n ≤ 1025) (hi : i ∈ List.range' a n) : i ≤ 1024 := by
  have := List.mem_range'_1.mp hi
  omega

/-- Settles O54: the loop zeroes each payload byte. -/
theorem clearIsTheLoop : Obligations.ClearIsTheLoop := by
  intro s hwf
  have hwf' : (writeLoop zeroFill (List.range' 1 1024) s).fb.wf :=
    wf_writeLoop _ (fun _ => mem_range'_le (by decide)) hwf
  refine ofPayload_eq_of_read? (t := fbWrite 0 0x40 (writeLoop zeroFill (List.range' 1 1024) s)) ?_
    (wf_fbWrite hwf' (by decide) _) fun i => ?_
  · exact onlyFb_trans (writeLoop_frame _ _ s) (fbWrite_frame _ _ _)
  · rw [fbWrite_fb, Memory.read?_write_of_wf hwf', read?_writeLoop (fun _ _ _ _ _ _ => rfl) (by decide)]
    by_cases h0 : i = 0
    · rw [if_pos h0.symm, if_pos h0]
    · rw [if_neg (Ne.symm h0), if_neg h0]
      by_cases h1 : i ≤ 1024
      · rw [if_pos (by omega), if_pos h1]; rfl
      · rw [if_neg (by omega), if_neg h1, Memory.read?_of_gt hwf (by omega)]

/-- Settles O47: the copies ascend, so each reads a byte that no earlier copy has written. -/
theorem scrollIsTheLoop : Obligations.ScrollIsTheLoop := by
  intro s hwf
  have hbelow : ∀ s i v j, i ≠ 0 → i < j → pageBelow (fbWrite i v s) j = pageBelow s j := fun s i v j hi hij => by
    rw [pageBelow, pageBelow, fbByte_fbWrite s hi, if_neg (by omega)]
  have hcopy : (writeLoop pageBelow (List.range' 1 896) s).fb.wf :=
    wf_writeLoop _ (fun _ => mem_range'_le (by decide)) hwf
  have hfill : (writeLoop zeroFill (List.range' 897 128) (writeLoop pageBelow (List.range' 1 896) s)).fb.wf :=
    wf_writeLoop _ (fun _ => mem_range'_le (by decide)) hcopy
  refine ofPayload_eq_of_read?
    (t := fbWrite 0 0x40 (writeLoop zeroFill (List.range' 897 128) (writeLoop pageBelow (List.range' 1 896) s))) ?_
    (wf_fbWrite hfill (by decide) _) fun i => ?_
  · exact onlyFb_trans (onlyFb_trans (writeLoop_frame _ _ s) (writeLoop_frame _ _ _)) (fbWrite_frame _ _ _)
  · rw [fbWrite_fb, Memory.read?_write_of_wf hfill, read?_writeLoop (fun _ _ _ _ _ _ => rfl) (by decide),
      read?_writeLoop hbelow (by decide)]
    by_cases h0 : i = 0
    · rw [if_pos h0.symm, if_pos h0]
    · rw [if_neg (Ne.symm h0), if_neg h0]
      by_cases h1 : i ≤ 1024
      · rw [if_pos h1]
        by_cases h2 : i ≤ 896
        · rw [if_neg (by omega), if_pos (by omega), if_pos h2]; rfl
        · rw [if_pos (by omega), if_neg h2]; rfl
      · rw [if_neg (by omega), if_neg (by omega), if_neg h1, Memory.read?_of_gt hwf (by omega)]

end Sys2Proof.Machine
end

section
/-! PROOF. Text and shapes of the renderer (`41_renderer_pixel_text.md` sections 4 and 5,
`42_renderer_shapes_control.md`): NEWLINE, PRINTCH, DRAWSTR, the lines, the rectangle and the control commands (R156
to R160, R180 to R189). -/

namespace Sys2Proof.Machine
open Sys2Proof.Config

/-! ### The display once initialised, and a full flush -/

/-- A display that is initialised is not initialised again (R150). -/
theorem dispLazyInit_of_dispInit {s : State} (h : s.dispInit = true) : dispLazyInit s = s := if_pos h

/-- A full flush is one event with the 1025 bytes (R59). -/
theorem flushAll_eq (s : State) :
    flushAll s = { s with trace := s.trace ++ [.dispFlush ((List.range 1025).map (fbByte (flushAll s)))] } := by
  rw [fbByte_flushAll]
  rfl

/-- Drawing in the payload after the lazy initialisation and then flushing: the frame of every shape (R180 to R184). -/
theorem flushed_drawing {s u : State} (h : OnlyPayload (dispLazyInit s) u) :
    flushAll u = { s with
      fb := (flushAll u).fb, dispInit := true
      trace := s.trace ++ dispStart s ++ [.dispFlush ((List.range 1025).map (fbByte (flushAll u)))] } ∧
    BytesSameExcept (fun j => 1 ≤ j ∧ j ≤ 1024) s (flushAll u) := by
  refine ⟨?_, ?_⟩
  · rw [fbByte_flushAll]
    exact h.emit_after_init _
  · simpa only [BytesSameExcept, fbByte_dispLazyInit, fbByte_flushAll] using h.bytesSameExcept

/-! ### NEWLINE -/

theorem exec_newline (s : State) : exec .newline s = .next (newLine (dispLazyInit s)) := rfl

/-- Settles O44. -/
theorem newlineMovesDown : Obligations.NewlineMovesDown := by
  intro s h
  have hcy : BitVec.ofNat 4 (s.cy.toNat + 1) = s.cy + 1 := by
    apply BitVec.eq_of_toNat_eq
    simp
  have hrow : ¬ (dispLazyInit s).cy.toNat + 1 > 7 := by rw [dispLazyInit_cy]; omega
  rw [exec_newline, newLine_eq, if_neg hrow, dispLazyInit_cy, hcy, dispLazyInit_eq]

/-- On the bottom row a new line scrolls and flushes (R157). -/
theorem newLine_of_bottom {s : State} (h : 7 ≤ s.cy.toNat) :
    newLine s = flushAll (scroll { s with cx := 0, cy := 7 }) := by
  rw [newLine_eq, if_pos (by omega)]

/-- A scroll reads no cursor. -/
theorem fbByte_scroll_at (s : State) (x : BitVec 8) (y : BitVec 4) :
    fbByte (scroll { s with cx := x, cy := y }) = fbByte (scroll s) := fbByte_of_fb rfl

/-- Settles O45: the scroll moves each page up one, blanks the last and tags the header. -/
theorem newlineScrollsAtTheBottom : Obligations.NewlineScrollsAtTheBottom := by
  intro s h
  have hrow : 7 ≤ (dispLazyInit s).cy.toNat := by rw [dispLazyInit_cy, h]; decide
  obtain ⟨hheader, hpayload⟩ := fbByte_scroll (dispLazyInit s)
  refine ⟨_, exec_newline s, ?_⟩
  rw [newLine_of_bottom hrow]
  refine ⟨?_, fun i h1 h2 => ?_, fun i h1 h2 => ?_, ?_⟩
  · conv_lhs => rw [flushAll_eq]
    simp only [scroll, flushAll_fb, dispLazyInit_bank, dispLazyInit_pwmInit, dispLazyInit_dispInit, dispLazyInit_cfgDbl,
      dispLazyInit_cfgZoom, dispLazyInit_dispPower, dispLazyInit_dispPolarity, dispLazyInit_trace,
      dispLazyInit_commands]
  · rw [fbByte_flushAll, fbByte_scroll_at, hpayload i h1 (by omega), if_pos h2, fbByte_dispLazyInit]
  · rw [fbByte_flushAll, fbByte_scroll_at, hpayload i (by omega) h2, if_neg (by omega)]
  · rw [fbByte_flushAll, fbByte_scroll_at, hheader]

/-- After `n` new lines from the bottom row the last `n` pages are blank (R159). -/
theorem issue_newlines (n : Nat) {s : State} (h : s.cy = 7) :
    ∃ t, issue (List.replicate n .newline) s = .next t ∧ t.cy = 7 ∧
    (∀ i, 1 ≤ i → i + 128 * n ≤ 1024 → fbByte t i = fbByte s (i + 128 * n)) ∧
    ∀ i, 1 ≤ i → 1024 < i + 128 * n → i ≤ 1024 → fbByte t i = 0x00 := by
  induction n generalizing s with
  | zero => exact ⟨s, rfl, h, fun _ _ _ => rfl, fun _ _ _ _ => by omega⟩
  | succ n ih =>
    obtain ⟨u, hu, hframe, hmoved, hblank, -⟩ := newlineScrollsAtTheBottom s h
    have hcy : u.cy = 7 := by rw [hframe]
    obtain ⟨t, ht, hty, hmoved', hblank'⟩ := ih hcy
    refine ⟨t, ?_, hty, fun i h1 h2 => ?_, fun i h1 h2 h3 => ?_⟩
    · rw [List.replicate_succ, issue, hu, andThen_of_next, ht]
    · rw [hmoved' i h1 (by omega), hmoved _ (by omega) (by omega)]
      congr 1
    · by_cases hi : i + 128 * n ≤ 1024
      · rw [hmoved' i h1 hi, hblank _ (by omega) (by omega)]
      · exact hblank' i h1 (by omega) h3

/-- Settles O46: eight pages are the whole payload. -/
theorem eightNewlinesBlankThePicture : Obligations.EightNewlinesBlankThePicture := by
  intro s h
  obtain ⟨t, ht, hcy, -, hblank⟩ := issue_newlines 8 h
  exact ⟨t, ht, hcy, fun i h1 h2 => hblank i h1 (by omega) h2⟩

/-! ### PRINTCH -/

/-- PRINTCH draws as DRAWCH does at the cursor and then advances it (R156). -/
theorem exec_printch (colour : Bool) (ch : Nat) (s : State) :
    exec (.printch colour ch) s =
      andThen (exec (.drawch colour ch s.cx.toNat s.cy.toNat) s) fun d => .next (advanceCursor d) := by
  simp only [exec, execPrintch, printChar, execDrawch, dispLazyInit_cx, dispLazyInit_cy]

/-- A state that differs from `s` in the framebuffer, the display's flag and the trace, in the form of a frame. -/
theorem drawn_frame {s t : State} {m : Memory} {tr : List Event}
    (h : t = { s with fb := m, dispInit := true, trace := tr }) :
    t = { s with fb := t.fb, dispInit := true, trace := t.trace } := by
  rw [h]

/-- A glyph drawn leaves everything but the framebuffer, the trace and the display's flag (R154, R155). -/
theorem exec_drawch_frame {colour : Bool} {ch col row : Nat} {s d : State}
    (h : exec (.drawch colour ch col row) s = .next d) :
    d = { s with fb := d.fb, dispInit := true, trace := d.trace } := by
  obtain ⟨-, ⟨-, hr, hc, rfl⟩ | ⟨-, -, -, rfl⟩⟩ := execDrawch_next h
  · exact drawn_frame ((OnlyPayload.singleGlyph Config.roms ch colour (dispLazyInit s) hr hc).emit_after_init _)
  · exact drawn_frame (OnlyPayload.doubleGlyph Config.roms ch col row colour (dispLazyInit s)).after_init

theorem glyphLeaves_single_eq_false {col row : Nat} : glyphLeaves false col row = false ↔ row ≤ 7 ∧ col ≤ 122 := by
  rw [Bool.eq_false_iff, Ne, glyphLeaves_single]
  omega

theorem glyphLeaves_double_eq_false {col row : Nat} : glyphLeaves true col row = false ↔ row ≤ 6 ∧ col ≤ 118 := by
  rw [Bool.eq_false_iff, Ne, glyphLeaves_double]
  omega

/-- DRAWCH goes on exactly where the glyph does not leave the picture (R154, R155). -/
theorem exec_drawch_next_iff {s : State} (hz : s.cfgZoom = false) (colour : Bool) (ch col row : Nat) :
    (∃ t, exec (.drawch colour ch col row) s = .next t) ↔ glyphLeaves s.cfgDbl col row = false := by
  constructor
  · rintro ⟨t, ht⟩
    cases hout : glyphLeaves s.cfgDbl col row with
    | false => rfl
    | true => rw [exec_drawch_fault hz hout] at ht; cases ht
  · intro hin
    cases hd : s.cfgDbl with
    | false =>
      obtain ⟨hr, hc⟩ := glyphLeaves_single_eq_false.mp (hd ▸ hin)
      exact ⟨_, exec_drawch_single hz hd hr hc colour ch⟩
    | true =>
      obtain ⟨hr, hc⟩ := glyphLeaves_double_eq_false.mp (hd ▸ hin)
      exact ⟨_, exec_drawch_double hz hd hr hc colour ch⟩

/-- The cursor advance of a size. -/
theorem advance_eq (dbl : Bool) : advance dbl = if dbl then 12 else 6 := rfl

theorem advanceCursor_eq (s : State) :
    advanceCursor s = if s.cx.toNat + advance s.cfgDbl > 120 then newLine s
      else { s with cx := BitVec.ofNat 8 (s.cx.toNat + advance s.cfgDbl) } := rfl

/-- Settles O42: the glyph is DRAWCH's, and the display is then initialised, so NEWLINE is the new line alone. -/
theorem printchDrawsThenAdvances : Obligations.PrintchDrawsThenAdvances := by
  intro colour ch s hz hfits
  have hin : glyphLeaves s.cfgDbl s.cx.toNat s.cy.toNat = false := by
    rcases hfits with ⟨hd, hin⟩ | ⟨hd, hin⟩ <;> rw [hd]
    · exact glyphLeaves_single_eq_false.mpr hin
    · exact glyphLeaves_double_eq_false.mpr hin
  obtain ⟨d, hd⟩ := (exec_drawch_next_iff hz colour ch _ _).mpr hin
  have hframe := exec_drawch_frame hd
  have hcx : d.cx = s.cx := by rw [hframe]
  have hdbl : d.cfgDbl = s.cfgDbl := by rw [hframe]
  have hinit : d.dispInit = true := by rw [hframe]
  refine ⟨d, advanceCursor d, hd, by rw [exec_printch, hd, andThen_of_next], fun hle => ?_, fun hgt => ?_⟩
  · rw [advanceCursor_eq, hcx, hdbl, advance_eq, if_neg (by omega)]
  · rw [exec_newline, dispLazyInit_of_dispInit hinit, advanceCursor_eq, hcx, hdbl, advance_eq, if_pos hgt]

theorem exec_printch_fault {s : State} (hz : s.cfgZoom = false)
    (h : glyphLeaves s.cfgDbl s.cx.toNat s.cy.toNat = true) (colour : Bool) (ch : Nat) :
    exec (.printch colour ch) s = .fault .fbOob := by
  rw [exec_printch, exec_drawch_fault hz h]
  rfl

/-- Settles O43. -/
theorem printchOutsideFaults : Obligations.PrintchOutsideFaults := fun colour ch _ hz h =>
  exec_printch_fault hz (glyphLeaves_of_outside h) colour ch

/-! ### DRAWSTR -/

theorem issue_cons_next_iff (i : Instr) (is : List Instr) (s : State) :
    (∃ t, issue (i :: is) s = .next t) ↔ ∃ d, exec i s = .next d ∧ ∃ t, issue is d = .next t := by
  constructor
  · rintro ⟨t, ht⟩
    obtain ⟨d, hd, ht⟩ := andThen_next ht
    exact ⟨d, hd, t, ht⟩
  · rintro ⟨d, hd, t, ht⟩
    exact ⟨t, by rw [issue, hd, andThen_of_next, ht]⟩

theorem drawStr_cons {dbl colour : Bool} {row ch col : Nat} {text : List Nat} {is : List Instr}
    (h : drawStr dbl colour row (ch :: text) col = some is) :
    ∃ rest, drawStr dbl colour row text (col + advance dbl) = some rest ∧ is = .drawch colour ch col row :: rest := by
  rw [drawStr] at h
  split at h
  · cases h
  · obtain ⟨rest, hrest, rfl⟩ := Option.map_eq_some_iff.mp h
    exact ⟨rest, hrest, rfl⟩

/-- A glyph that fits at a column fits at every column to the left. -/
theorem glyphLeaves_mono {dbl : Bool} {col n row : Nat} (h : glyphLeaves dbl (col + n) row = false) :
    glyphLeaves dbl col row = false := by
  cases dbl with
  | false => rw [glyphLeaves_single_eq_false] at h ⊢; omega
  | true => rw [glyphLeaves_double_eq_false] at h ⊢; omega

/-- A text is drawn to its end exactly when its last character fits: the columns ascend (R160 (b)). -/
theorem issue_drawStr_next_iff {colour : Bool} {row : Nat} (text : List Nat) {ch col : Nat} {is : List Instr}
    {s : State} (hz : s.cfgZoom = false) (his : drawStr s.cfgDbl colour row (ch :: text) col = some is) :
    (∃ t, issue is s = .next t) ↔ glyphLeaves s.cfgDbl (col + advance s.cfgDbl * text.length) row = false := by
  induction text generalizing ch col is s with
  | nil =>
    obtain ⟨rest, hrest, rfl⟩ := drawStr_cons his
    obtain rfl := Option.some.inj hrest
    rw [issue_cons_next_iff, List.length_nil, Nat.mul_zero, Nat.add_zero, ← exec_drawch_next_iff hz colour ch]
    exact exists_congr fun d => and_iff_left ⟨d, rfl⟩
  | cons ch' text ih =>
    obtain ⟨rest, hrest, rfl⟩ := drawStr_cons his
    have hcol : col + advance s.cfgDbl * (ch' :: text).length =
        col + advance s.cfgDbl + advance s.cfgDbl * text.length := by
      rw [List.length_cons, Nat.mul_succ]
      omega
    have hrest_iff : ∀ d, exec (.drawch colour ch col row) s = .next d → ((∃ t, issue rest d = .next t) ↔
        glyphLeaves s.cfgDbl (col + advance s.cfgDbl + advance s.cfgDbl * text.length) row = false) := fun d hd => by
      have hdbl : d.cfgDbl = s.cfgDbl := by rw [exec_drawch_frame hd]
      rw [← hdbl] at hrest ⊢
      exact ih (by rw [exec_drawch_frame hd, hz]) hrest
    rw [issue_cons_next_iff, hcol]
    constructor
    · rintro ⟨d, hd, ht⟩
      exact (hrest_iff d hd).mp ht
    · intro hin
      obtain ⟨d, hd⟩ := (exec_drawch_next_iff hz colour ch col row).mpr (glyphLeaves_mono (glyphLeaves_mono hin))
      exact ⟨d, hd, (hrest_iff d hd).mpr hin⟩

/-- Settles O48: the last character's column is the first one's and an advance for each character after it. -/
theorem drawstrFitsExactly : Obligations.DrawstrFitsExactly := by
  intro colour text col row is s hz hne his
  obtain ⟨ch, text, rfl⟩ := List.exists_cons_of_ne_nil hne
  rw [issue_drawStr_next_iff text hz his, advance_eq, List.length_cons, Nat.add_sub_cancel]
  cases s.cfgDbl with
  | false => exact glyphLeaves_single_eq_false
  | true => exact glyphLeaves_double_eq_false

/-! ### Lines and rectangles -/

/-- Settles O50, from the pixels of the clipped run. -/
theorem hlineDrawsClipped : Obligations.HlineDrawsClipped := by
  intro colour x y len s
  obtain ⟨hframe, hbytes⟩ := flushed_drawing (OnlyPayload.hLineBody x y len colour (dispLazyInit s))
  refine ⟨_, rfl, hframe, fun x' y' hx hy => ?_, hbytes⟩
  rw [pixel_of_fbByte (fbByte_flushAll _), pixel_hLineBody x y len colour _ hx hy,
    pixel_of_fbByte (fbByte_dispLazyInit s)]

/-- Settles O51, from the pixels of the clipped run. -/
theorem vlineDrawsClipped : Obligations.VlineDrawsClipped := by
  intro colour x y len s
  obtain ⟨hframe, hbytes⟩ := flushed_drawing (OnlyPayload.vLineBody x y len colour (dispLazyInit s))
  refine ⟨_, rfl, hframe, fun x' y' hx hy => ?_, hbytes⟩
  rw [pixel_of_fbByte (fbByte_flushAll _), pixel_vLineBody x y len colour _ hx hy,
    pixel_of_fbByte (fbByte_dispLazyInit s)]

/-- Settles O52: the four edges between the sorted corners are the outline. -/
theorem rectDrawsTheOutline : Obligations.RectDrawsTheOutline := by
  intro colour x1 y1 x2 y2 s
  obtain ⟨hframe, hbytes⟩ := flushed_drawing
    (OnlyPayload.rectEdges (min x1 x2) (min y1 y2) (max x1 x2) (max y1 y2) colour (dispLazyInit s))
  refine ⟨_, rfl, hframe, fun x y hx hy => ?_, hbytes⟩
  rw [pixel_of_fbByte (fbByte_flushAll _), pixel_rectEdges (by omega) (by omega) colour _ hx hy,
    pixel_of_fbByte (fbByte_dispLazyInit s)]
  refine if_congr ?_ rfl rfl
  omega

/-! ### Control commands -/

/-- The image of a blank framebuffer (R185). -/
theorem image_of_blank {s : State} (h0 : fbByte s 0 = 0x40) (h : ∀ i, 1 ≤ i → i ≤ 1024 → fbByte s i = 0x00) :
    image s = 0x40 :: List.replicate 1024 0x00 := by
  have hcons : image s = fbByte s 0 :: (List.range' 1 1024).map (fbByte s) := by
    rw [image, List.range_eq_range', fbBytes, List.range'_succ, List.map_cons]
  rw [hcons, h0, List.cons.injEq, List.eq_replicate_iff]
  refine ⟨rfl, by rw [List.length_map, List.length_range'], fun b hb => ?_⟩
  obtain ⟨i, hi, rfl⟩ := List.mem_map.mp hb
  have := List.mem_range'_1.mp hi
  exact h i (by omega) (by omega)

/-- Settles O53, from the bytes of the blank framebuffer. -/
theorem clearBlanksEverything : Obligations.ClearBlanksEverything := by
  intro s
  obtain ⟨hheader, hpayload⟩ := fbByte_clearFb { dispLazyInit s with cx := 0, cy := 0 }
  refine ⟨_, rfl, ?_, ?_, ?_⟩
  · rw [flushAll, emit, image_of_blank hheader hpayload, dispLazyInit_eq]
    rfl
  · rw [fbByte_flushAll, hheader]
  · rw [fbByte_flushAll]
    exact hpayload

/-- Settles O55. -/
theorem flushSendsTheBuffer : Obligations.FlushSendsTheBuffer := by
  intro s
  rw [exec, execFlush, flushAll_eq, fbByte_flushAll, fbByte_dispLazyInit, dispLazyInit_eq]

/-- Settles O56. -/
theorem cfgSetsDoubleSize : Obligations.CfgSetsDoubleSize := fun _ _ => rfl

/-- Settles O57. -/
theorem invertAndDisplayPassThrough : Obligations.InvertAndDisplayPassThrough := by
  intro on s
  rw [exec, exec, execInvert, execDisplay, dispLazyInit_eq]
  exact ⟨rfl, rfl⟩

end Sys2Proof.Machine
end

section
/-! PROOF. Said once, what a renderer command can do: a drawing command paints the payload and sends it, PRINTCH and
NEWLINE move the cursor after that, and none reads what lies outside the renderer (R21, R39, R50, R150). -/

namespace Sys2Proof.Machine
open Sys2Proof.Config

/-! ### A state in other surroundings -/

/-- The state with everything a renderer command's body neither reads nor writes taken from `c`, and the trace `tr`. -/
def State.within (s c : State) (tr : List Event) : State :=
  { s with bank := c.bank, pwmInit := c.pwmInit, dispInit := c.dispInit, commands := c.commands, trace := tr }

theorem dispLazyInit_within (s c : State) (tr : List Event) :
    dispLazyInit (s.within c tr) = s.within { c with dispInit := true } (tr ++ dispStart c) := by
  rw [dispLazyInit_eq]
  rfl

/-- The events are no initialisation. -/
def NoInit (evs : List Event) : Prop := .pwmInit ∉ evs ∧ .dispInit ∉ evs

theorem noInit_nil : NoInit [] := ⟨nofun, nofun⟩

theorem noInit_append {es fs : List Event} (he : NoInit es) (hf : NoInit fs) : NoInit (es ++ fs) := by
  simp only [NoInit, List.mem_append, not_or] at *
  exact ⟨⟨he.1, hf.1⟩, he.2, hf.2⟩

/-- From `s` in any surroundings the state function does the same, and appends the same events, no initialisation. -/
def BlindAt (f : State → State) (s : State) : Prop :=
  ∃ evs, NoInit evs ∧ ∀ c tr, f (s.within c tr) = (f s).within c (tr ++ evs)

theorem BlindAt.of_silent {f : State → State} {s : State} (h : ∀ c tr, f (s.within c tr) = (f s).within c tr) :
    BlindAt f s := ⟨[], noInit_nil, fun c tr => by rw [h, List.append_nil]⟩

theorem BlindAt.comp {f g : State → State} {s : State} (hf : BlindAt f s) (hg : BlindAt g (f s)) :
    BlindAt (fun s => g (f s)) s := by
  obtain ⟨es, he, hf⟩ := hf
  obtain ⟨fs, hf', hg⟩ := hg
  exact ⟨es ++ fs, noInit_append he hf', fun c tr => by rw [← List.append_assoc, ← hg, ← hf]⟩

theorem blindAt_flushAll (s : State) : BlindAt flushAll s :=
  ⟨[.dispFlush (image s)], ⟨by simp, by simp⟩, fun _ _ => rfl⟩

theorem blindAt_streamAt (col page n : Nat) (s : State) : BlindAt (streamAt col page n) s :=
  ⟨[.dispStream col page ((List.range' (fbIndex col page) n).map (fbByte s))], ⟨by simp, by simp⟩, fun _ _ => rfl⟩

theorem blindAt_newLine (s : State) : BlindAt newLine s := by
  by_cases h : s.cy.toNat + 1 > 7
  · have hscroll : ∀ c tr, newLine (s.within c tr) = flushAll (scroll { s.within c tr with cx := 0, cy := 7 }) :=
      fun c tr => if_pos h
    obtain ⟨evs, hevs, hflush⟩ := blindAt_flushAll (scroll { s with cx := 0, cy := 7 })
    exact ⟨evs, hevs, fun c tr => by rw [hscroll c tr, newLine_eq, if_pos h, ← hflush]; rfl⟩
  · have hmove : ∀ c tr, newLine (s.within c tr) =
        { s.within c tr with cx := 0, cy := BitVec.ofNat 4 (s.cy.toNat + 1) } := fun c tr => if_neg h
    exact .of_silent fun c tr => by rw [hmove c tr, newLine_eq, if_neg h]; rfl

theorem blindAt_advanceCursor (s : State) : BlindAt advanceCursor s := by
  by_cases h : s.cx.toNat + advance s.cfgDbl > 120
  · have hwrap : ∀ c tr, advanceCursor (s.within c tr) = newLine (s.within c tr) := fun c tr => if_pos h
    obtain ⟨evs, hevs, hline⟩ := blindAt_newLine s
    exact ⟨evs, hevs, fun c tr => by rw [hwrap c tr, advanceCursor_eq, if_pos h, hline]⟩
  · have hmove : ∀ c tr, advanceCursor (s.within c tr) =
        { s.within c tr with cx := BitVec.ofNat 8 (s.cx.toNat + advance s.cfgDbl) } := fun c tr => if_neg h
    exact .of_silent fun c tr => by rw [hmove c tr, advanceCursor_eq, if_neg h]; rfl

/-! ### Painting -/

/-- The state function changes the payload at most, keeps the canonical form, does nothing new when done again, and sees
nothing outside the renderer. -/
structure Paints (f : State → State) : Prop where
  only : ∀ s, OnlyPayload s (f s)
  wf : ∀ s, s.fb.wf → (f s).fb.wf
  again : ∀ s t, fbByte t = fbByte (f s) → fbByte (f t) = fbByte t
  blind : ∀ s c tr, f (s.within c tr) = (f s).within c tr

/-- A payload byte is its eight pixels (R29, R53). -/
theorem fbByte_eq_of_pixel {s t : State} (h : ∀ x y, x < 128 → y < 64 → pixel t x y = pixel s x y) {i : Nat}
    (h1 : 1 ≤ i) (h2 : i ≤ 1024) : fbByte t i = fbByte s i := by
  apply BitVec.eq_of_getLsbD_eq
  intro n hn
  have hpage : ((i - 1) / 128 * 8 + n) / 8 = (i - 1) / 128 := by omega
  have hbit : ((i - 1) / 128 * 8 + n) % 8 = n := by omega
  have hindex : fbIndex ((i - 1) % 128) ((i - 1) / 128) = i := by simp only [fbIndex, fbW]; omega
  have := h ((i - 1) % 128) ((i - 1) / 128 * 8 + n) (by omega) (by omega)
  simpa only [pixel, hpage, hbit, hindex] using this

/-- Where each pixel is either given a fixed value or kept, painting again changes nothing. -/
theorem again_of_pixel {f : State → State} (honly : ∀ s, OnlyPayload s (f s))
    (hpixel : ∀ x y, x < 128 → y < 64 → (∃ v, ∀ s, pixel (f s) x y = v) ∨ ∀ s, pixel (f s) x y = pixel s x y)
    (s t : State) (h : fbByte t = fbByte (f s)) : fbByte (f t) = fbByte t := by
  funext i
  by_cases hi : 1 ≤ i ∧ i ≤ 1024
  · refine fbByte_eq_of_pixel (fun x y hx hy => ?_) hi.1 hi.2
    rcases hpixel x y hx hy with ⟨v, hv⟩ | hkept
    · rw [hv, pixel_of_fbByte h, hv]
    · exact hkept t
  · exact (honly t).2 i (by omega)

/-- A pixel that takes one of two values by a condition that does not depend on the state is fixed or kept. -/
theorem fixed_or_kept {p : Prop} [Decidable p] {v : Bool} {f : State → State} {x y : Nat}
    (h : ∀ s, pixel (f s) x y = if p then v else pixel s x y) :
    (∃ v, ∀ s, pixel (f s) x y = v) ∨ ∀ s, pixel (f s) x y = pixel s x y := by
  by_cases hp : p
  · exact .inl ⟨v, fun s => by rw [h, if_pos hp]⟩
  · exact .inr fun s => by rw [h, if_neg hp]

theorem blind_foldl {α : Type} {f : State → α → State} (h : ∀ s a c tr, f (s.within c tr) a = (f s a).within c tr)
    (l : List α) (s c : State) (tr : List Event) : l.foldl f (s.within c tr) = (l.foldl f s).within c tr := by
  induction l generalizing s with
  | nil => rfl
  | cons a l ih => rw [List.foldl_cons, h, ih, List.foldl_cons]

theorem blind_plot (x y : Nat) (v : Bool) (s c : State) (tr : List Event) :
    plot x y v (s.within c tr) = (plot x y v s).within c tr := by
  unfold plot
  split <;> rfl

theorem blind_hLineBody (x y len : Nat) (v : Bool) (s c : State) (tr : List Event) :
    hLineBody x y len v (s.within c tr) = (hLineBody x y len v s).within c tr :=
  blind_foldl (fun _ i => blind_plot i y v _) _ s c tr

theorem blind_vLineBody (x y len : Nat) (v : Bool) (s c : State) (tr : List Event) :
    vLineBody x y len v (s.within c tr) = (vLineBody x y len v s).within c tr :=
  blind_foldl (fun _ j => blind_plot x j v _) _ s c tr

theorem blind_plotBlock (x y : Nat) (v : Bool) (s c : State) (tr : List Event) :
    plotBlock x y v (s.within c tr) = (plotBlock x y v s).within c tr := by
  simp only [plotBlock, blind_plot]

theorem blind_doubleGlyph (R : Roms) (ch col row : Nat) (q : Bool) (s c : State) (tr : List Event) :
    doubleGlyph R ch col row q (s.within c tr) = (doubleGlyph R ch col row q s).within c tr := by
  refine blind_foldl (fun s i c tr => ?_) glyphColumns s c tr
  exact blind_foldl (fun s j c tr => blind_plotBlock _ _ _ s c tr) (List.range 8) s c tr

theorem blind_fbWriteList (i : Nat) (vs : List Byte) (s c : State) (tr : List Event) :
    fbWriteList i vs (s.within c tr) = (fbWriteList i vs s).within c tr := by
  induction vs generalizing i s with
  | nil => rfl
  | cons v vs ih => exact ih (i + 1) (fbWrite i v s)

theorem Paints.id : Paints fun s => s where
  only := .refl
  wf := fun _ h => h
  again := fun _ _ _ => rfl
  blind := fun _ _ _ => rfl

theorem Paints.plot (x y : Nat) (v : Bool) : Paints (plot x y v) where
  only := .plot x y v
  wf := fun _ h => wf_plot h x y v
  again := again_of_pixel (.plot x y v) fun _ _ hx hy => fixed_or_kept fun s => pixel_plot x y v s hx hy
  blind := blind_plot x y v

theorem Paints.hLineBody (x y len : Nat) (v : Bool) : Paints (hLineBody x y len v) where
  only := .hLineBody x y len v
  wf := fun _ h => wf_hLineBody h x y len v
  again := again_of_pixel (.hLineBody x y len v) fun _ _ hx hy =>
    fixed_or_kept fun s => pixel_hLineBody x y len v s hx hy
  blind := blind_hLineBody x y len v

theorem Paints.vLineBody (x y len : Nat) (v : Bool) : Paints (vLineBody x y len v) where
  only := .vLineBody x y len v
  wf := fun _ h => wf_vLineBody h x y len v
  again := again_of_pixel (.vLineBody x y len v) fun _ _ hx hy =>
    fixed_or_kept fun s => pixel_vLineBody x y len v s hx hy
  blind := blind_vLineBody x y len v

theorem Paints.rectEdges {xa ya xb yb : Nat} (hx : xa ≤ xb) (hy : ya ≤ yb) (v : Bool) :
    Paints (rectEdges xa ya xb yb v) where
  only := .rectEdges xa ya xb yb v
  wf := fun _ h => wf_rectEdges h xa ya xb yb v
  again := again_of_pixel (.rectEdges xa ya xb yb v) fun _ _ hx' hy' =>
    fixed_or_kept fun s => pixel_rectEdges hx hy v s hx' hy'
  blind := fun s c tr => by simp only [Machine.rectEdges, blind_hLineBody, blind_vLineBody]

theorem Paints.doubleGlyph (R : Roms) (ch col row : Nat) (q : Bool) : Paints (doubleGlyph R ch col row q) where
  only := .doubleGlyph R ch col row q
  wf := fun _ h => wf_doubleGlyph h R ch col row q
  again := again_of_pixel (.doubleGlyph R ch col row q) fun _ _ hx hy =>
    fixed_or_kept fun s => pixel_doubleGlyph R ch col row q s hx hy
  blind := blind_doubleGlyph R ch col row q

theorem Paints.singleGlyph (R : Roms) (ch : Nat) {col row : Nat} (q : Bool) (hr : row ≤ 7) (hc : col ≤ 122) :
    Paints (singleGlyph R ch col row q) where
  only := fun s => .singleGlyph R ch q s hr hc
  wf := fun _ h => wf_singleGlyph h R ch q hr hc
  again := fun s t h => by
    funext j
    have ht : fbByte t j = fbByte (Machine.singleGlyph R ch col row q s) j := by rw [h]
    rw [fbByte_singleGlyph] at ht ⊢
    split at ht
    case isTrue hj => rw [if_pos hj, ht]
    case isFalse hj => rw [if_neg hj]
  blind := fun s c tr => blind_fbWriteList _ _ s c tr

/-! ### The drawing commands -/

/-- The renderer commands that paint and move no cursor: the pixel, the glyph at a place, the shapes and the flush. -/
def isDrawing : Instr → Bool
  | .setpx _ _ _ | .drawch _ _ _ _ | .hline _ _ _ _ | .vline _ _ _ _ | .rect _ _ _ _ _ | .flush => true
  | _ => false

/-- What follows a painting: nothing, a full flush, or a stream. -/
def Sends (g : State → State) : Prop := (g = fun s => s) ∨ g = flushAll ∨ ∃ col page n, g = streamAt col page n

/-- What is sent leaves everything but the trace. -/
theorem Sends.frame {g : State → State} (h : Sends g) (s : State) : g s = { s with trace := (g s).trace } := by
  rcases h with rfl | rfl | ⟨col, page, n, rfl⟩ <;> rfl

theorem Sends.fbByte_eq {g : State → State} (h : Sends g) (s : State) : fbByte (g s) = fbByte s := by
  rcases h with rfl | rfl | ⟨col, page, n, rfl⟩
  · rfl
  · exact fbByte_flushAll s
  · exact fbByte_streamAt col page n s

theorem Sends.blindAt {g : State → State} (h : Sends g) (s : State) : BlindAt g s := by
  rcases h with rfl | rfl | ⟨col, page, n, rfl⟩
  · exact .of_silent fun _ _ => rfl
  · exact blindAt_flushAll s
  · exact blindAt_streamAt col page n s

/-- The two states have the same mode flags, all that decides whether a drawing command goes on. -/
def SameModes (s s' : State) : Prop := s'.cfgDbl = s.cfgDbl ∧ s'.cfgZoom = s.cfgZoom

/-- A drawing command either initialises the display, paints and sends, or stops, from every state with the same modes
alike (R150 to R155, R180 to R186, R200). -/
theorem exec_drawing {i : Instr} (hi : isDrawing i = true) (s : State) :
    (∃ f g, Paints f ∧ Sends g ∧ ∀ s', SameModes s s' → exec i s' = .next (g (f (dispLazyInit s')))) ∨
    ∃ o : Outcome, (o = .fault .fbOob ∨ o = .refused .zoomConfigured) ∧ ∀ s', SameModes s s' → exec i s' = o := by
  cases i with
  | setpx colour x y =>
    by_cases hout : 127 < x ∨ 63 < y
    · exact .inr ⟨_, .inl rfl, fun s' _ => exec_setpx_fault hout colour s'⟩
    · exact .inl ⟨_, _, .plot x y colour, .inr (.inr ⟨x, y / 8, 1, rfl⟩), fun s' _ =>
        exec_setpx_next (by omega) (by omega) colour s'⟩
  | drawch colour ch col row =>
    cases hz : s.cfgZoom with
    | true => exact .inr ⟨_, .inr rfl, fun s' hs' => exec_drawch_refused (hs'.2.trans hz) colour ch col row⟩
    | false =>
      cases hout : glyphLeaves s.cfgDbl col row with
      | true =>
        exact .inr ⟨_, .inl rfl, fun s' hs' => exec_drawch_fault (hs'.2.trans hz) (hs'.1 ▸ hout) colour ch⟩
      | false =>
        cases hd : s.cfgDbl with
        | false =>
          obtain ⟨hr, hc⟩ := glyphLeaves_single_eq_false.mp (hd ▸ hout)
          exact .inl ⟨_, _, .singleGlyph Config.roms ch colour hr hc, .inr (.inr ⟨col, row, 6, rfl⟩), fun s' hs' =>
            exec_drawch_single (hs'.2.trans hz) (hs'.1.trans hd) hr hc colour ch⟩
        | true =>
          obtain ⟨hr, hc⟩ := glyphLeaves_double_eq_false.mp (hd ▸ hout)
          exact .inl ⟨_, _, .doubleGlyph Config.roms ch col row colour, .inl rfl, fun s' hs' =>
            exec_drawch_double (hs'.2.trans hz) (hs'.1.trans hd) hr hc colour ch⟩
  | hline colour x y len => exact .inl ⟨_, _, .hLineBody x y len colour, .inr (.inl rfl), fun _ _ => rfl⟩
  | vline colour x y len => exact .inl ⟨_, _, .vLineBody x y len colour, .inr (.inl rfl), fun _ _ => rfl⟩
  | rect colour x1 y1 x2 y2 =>
    exact .inl ⟨_, _, .rectEdges (by omega) (by omega) colour, .inr (.inl rfl), fun _ _ => rfl⟩
  | flush => exact .inl ⟨_, _, .id, .inr (.inl rfl), fun _ _ => rfl⟩
  | _ => cases hi

/-- A drawing command that goes on painted and sent, and does so from every state with the same modes. -/
theorem exec_drawing_next {i : Instr} (hi : isDrawing i = true) {s t : State} (h : exec i s = .next t) :
    ∃ f g, Paints f ∧ Sends g ∧ t = g (f (dispLazyInit s)) ∧
      ∀ s', SameModes s s' → exec i s' = .next (g (f (dispLazyInit s'))) := by
  rcases exec_drawing hi s with ⟨f, g, hf, hg, hexec⟩ | ⟨o, ho, hexec⟩
  · refine ⟨f, g, hf, hg, ?_, hexec⟩
    injection h.symm.trans (hexec s ⟨rfl, rfl⟩)
  · have hstop := h.symm.trans (hexec s ⟨rfl, rfl⟩)
    rcases ho with rfl | rfl <;> cases hstop

/-- A drawing command leaves everything but the framebuffer, the display's flag and the trace. -/
theorem exec_drawing_frame {i : Instr} (hi : isDrawing i = true) {s t : State} (h : exec i s = .next t) :
    t = { s with fb := t.fb, dispInit := true, trace := t.trace } := by
  obtain ⟨f, g, hf, hg, heq, -⟩ := exec_drawing_next hi h
  have hu := (hf.only (dispLazyInit s)).after_init
  have ht := hg.frame (f (dispLazyInit s))
  rw [← heq] at ht
  generalize f (dispLazyInit s) = u at hu ht
  rw [ht, hu]

/-! ### The kinds of commands -/

/-- Every command routes, draws, or is one of six others. -/
theorem command_kinds (i : Instr) : isRouter i = true ∨ isDrawing i = true ∨ (∃ colour ch, i = .printch colour ch) ∨
    i = .newline ∨ i = .clear ∨ (∃ on, i = .invert on) ∨ (∃ on, i = .display on) ∨ ∃ dbl, i = .cfg dbl := by
  cases i <;> simp [isRouter, isDrawing]

/-- A router command does not use the display. -/
theorem not_both_units {i : Instr} (hr : isRouter i = true) : usesDisplay i = false := by
  cases i <;> simp_all [isRouter, usesDisplay]

/-- A router command that goes on made its writes after the lazy initialisation. -/
theorem exec_router_next {i : Instr} (hi : isRouter i = true) {s t : State} (h : exec i s = .next t) :
    t = writeAll (routerWrites i) (pwmLazyInit s) := by
  injection h.symm.trans (exec_eq_writeAll hi s)

/-- A router command leaves everything but the bank, its flag and the trace (R50). -/
theorem exec_router_frame {i : Instr} (hi : isRouter i = true) {s t : State} (h : exec i s = .next t) :
    t = { s with bank := t.bank, pwmInit := true, trace := s.trace ++ pwmStart s ++ writeEvents (routerWrites i) } := by
  rw [exec_router_next hi h]
  exact writeAll_pwmLazyInit _ s

/-- PRINTCH that goes on drew at the cursor and then advanced it. -/
theorem exec_printch_next {colour : Bool} {ch : Nat} {s t : State} (h : exec (.printch colour ch) s = .next t) :
    ∃ d, exec (.drawch colour ch s.cx.toNat s.cy.toNat) s = .next d ∧ t = advanceCursor d := execPrintch_next h

theorem exec_clear (s : State) :
    exec .clear s = .next (flushAll (clearFb { dispLazyInit s with cx := 0, cy := 0 })) := rfl

/-- A new line leaves everything but the framebuffer, the cursor and the trace. -/
theorem newLine_frame (s : State) : newLine s =
    { s with fb := (newLine s).fb, cx := (newLine s).cx, cy := (newLine s).cy, trace := (newLine s).trace } := by
  rw [newLine_eq]
  split <;> rfl

theorem advanceCursor_frame (s : State) : advanceCursor s =
    { s with fb := (advanceCursor s).fb, cx := (advanceCursor s).cx, cy := (advanceCursor s).cy
             trace := (advanceCursor s).trace } := by
  rw [advanceCursor_eq]
  split
  · exact newLine_frame s
  · rfl

/-! ### A renderer command in other surroundings -/

/-- From `s` in any surroundings the command ends alike: the display initialised, the same events after that. -/
def ExecBlindAt (i : Instr) (s : State) : Prop :=
  ∃ (o : Outcome) (evs : List Event), NoInit evs ∧ ∀ c tr,
    exec i (s.within c tr) = andThen o fun t => .next (t.within { c with dispInit := true } (tr ++ dispStart c ++ evs))

theorem ExecBlindAt.of_blindAt {i : Instr} {f : State → State} {s : State} (hf : BlindAt f s)
    (h : ∀ c tr, exec i (s.within c tr) = .next (f (dispLazyInit (s.within c tr)))) : ExecBlindAt i s := by
  obtain ⟨evs, hevs, hf⟩ := hf
  exact ⟨.next (f s), evs, hevs, fun c tr => by rw [h, dispLazyInit_within, hf, andThen_of_next]⟩

theorem execBlindAt_of_drawing {i : Instr} (hi : isDrawing i = true) (s : State) : ExecBlindAt i s := by
  rcases exec_drawing hi s with ⟨f, g, hf, hg, hexec⟩ | ⟨o, ho, hexec⟩
  · exact .of_blindAt ((BlindAt.of_silent (hf.blind s)).comp (hg.blindAt (f s))) fun c tr => hexec _ ⟨rfl, rfl⟩
  · refine ⟨o, [], noInit_nil, fun c tr => ?_⟩
    rw [hexec (s.within c tr) ⟨rfl, rfl⟩]
    rcases ho with rfl | rfl <;> rfl

theorem execBlindAt_printch (colour : Bool) (ch : Nat) (s : State) : ExecBlindAt (.printch colour ch) s := by
  obtain ⟨o, es, hes, hdraw⟩ := execBlindAt_of_drawing (i := .drawch colour ch s.cx.toNat s.cy.toNat) rfl s
  have hprint : ∀ c tr, exec (.printch colour ch) (s.within c tr) =
      andThen (andThen o fun t => .next (t.within { c with dispInit := true } (tr ++ dispStart c ++ es)))
        fun d => .next (advanceCursor d) := fun c tr => by rw [exec_printch, ← hdraw]; rfl
  cases o with
  | next d =>
    obtain ⟨fs, hfs, hadvance⟩ := blindAt_advanceCursor d
    refine ⟨.next (advanceCursor d), es ++ fs, noInit_append hes hfs, fun c tr => ?_⟩
    rw [hprint, andThen_of_next, andThen_of_next, hadvance, andThen_of_next, List.append_assoc _ es fs]
  | fault r => exact ⟨.fault r, [], noInit_nil, hprint⟩
  | refused r => exact ⟨.refused r, [], noInit_nil, hprint⟩

/-- Every renderer command that initialises the display is blind to its surroundings. -/
theorem exec_usesDisplay {i : Instr} (hi : usesDisplay i = true) (s : State) : ExecBlindAt i s := by
  rcases command_kinds i with hr | hd | ⟨colour, ch, rfl⟩ | rfl | rfl | ⟨on, rfl⟩ | ⟨on, rfl⟩ | ⟨dbl, rfl⟩
  · rw [not_both_units hr] at hi
    cases hi
  · exact execBlindAt_of_drawing hd s
  · exact execBlindAt_printch colour ch s
  · exact .of_blindAt (blindAt_newLine s) fun _ _ => rfl
  · have hblank : BlindAt (fun s => clearFb { s with cx := 0, cy := 0 }) s := .of_silent fun _ _ => rfl
    exact .of_blindAt (hblank.comp (blindAt_flushAll _)) fun _ _ => rfl
  · exact .of_blindAt
      (f := fun s => { emit (.dispCmdInvert on) s with dispPolarity := if on then .inverted else .normal })
      ⟨[.dispCmdInvert on], ⟨by simp, by simp⟩, fun _ _ => rfl⟩ fun _ _ => rfl
  · exact .of_blindAt (f := fun s => { emit (.dispCmdPower on) s with dispPower := if on then .on else .off })
      ⟨[.dispCmdPower on], ⟨by simp, by simp⟩, fun _ _ => rfl⟩ fun _ _ => rfl
  · cases hi

end Sys2Proof.Machine
end

section
/-! PROOF. The step, the reset and the whole-machine rules: who writes what, what comes first, what is never read, and
what a second execution changes (R7, R21, R39, R50, R63, R87, R110, R150, R231). -/

namespace Sys2Proof.Machine
open Sys2Proof.Config

/-! ### One step -/

/-- Settles O7. -/
theorem stepRunsDecodedCommand : Obligations.StepRunsDecodedCommand := fun s w ws i hz hw hi => by
  simp only [step, hz, hw, hi, Bool.false_eq_true, if_false]

/-- Settles O8. -/
theorem illegalWordChangesNothing : Obligations.IllegalWordChangesNothing := fun s w ws e hz hw he => by
  simp only [step, hz, hw, he, Bool.false_eq_true, if_false]

theorem step_of_zoom {s : State} (hz : s.cfgZoom = true) : step s = .refused .zoomConfigured := if_pos hz

theorem step_of_no_command {s : State} (hz : s.cfgZoom = false) (hw : s.commands = []) : step s = .next s := by
  simp only [step, hz, hw, Bool.false_eq_true, if_false]

/-- Settles O9: PRINTCH refuses as the glyph drawing does. -/
theorem zoomIsRefused : Obligations.ZoomIsRefused := by
  refine fun s hz => ⟨step_of_zoom hz, exec_drawch_refused hz, fun colour ch => ?_⟩
  rw [exec_printch, exec_drawch_refused hz]
  rfl

/-- A step that goes on waits, uses up an illegal word, or executes a command on the state without its word. -/
theorem step_next {s t : State} (h : step s = .next t) :
    t = s ∨ ∃ w ws, s.commands = w :: ws ∧
      ((∃ e, decode w = .error e ∧ t = { s with commands := ws }) ∨
        ∃ i, decode w = .ok i ∧ exec i { s with commands := ws } = .next t) := by
  have hz : s.cfgZoom = false := Bool.eq_false_iff.mpr fun hz => by
    rw [step_of_zoom hz] at h
    cases h
  cases hw : s.commands with
  | nil =>
    rw [step_of_no_command hz hw] at h
    injection h with h
    exact .inl h.symm
  | cons w ws =>
    refine .inr ⟨w, ws, rfl, ?_⟩
    cases hd : decode w with
    | error e =>
      rw [illegalWordChangesNothing s w ws e hz hw hd] at h
      injection h with h
      exact .inl ⟨e, rfl, h.symm⟩
    | ok i => exact .inr ⟨i, rfl, (stepRunsDecodedCommand s w ws i hz hw hd).symm.trans h⟩

/-- What every command keeps, and does not depend on the host's sequence, every step keeps. -/
theorem step_keeps {P : State → Prop} (hcommands : ∀ s ws, P s → P { s with commands := ws })
    (hexec : ∀ {i s t}, P s → exec i s = .next t → P t) {s t : State} (hs : P s) (h : step s = .next t) : P t := by
  rcases step_next h with rfl | ⟨w, ws, -, ⟨e, -, rfl⟩ | ⟨i, -, ht⟩⟩
  · exact hs
  · exact hcommands s ws hs
  · exact hexec (hcommands s ws hs) ht

/-! ### Reset -/

/-- Settles O10: the values stand in the definition. -/
theorem resetLeaves : Obligations.ResetLeaves := ⟨rfl, rfl, rfl, rfl, rfl, rfl, rfl, rfl⟩

/-- Settles O11: nothing is listed in the framebuffer and nothing is in the trace. -/
theorem resetMeetsInvariants : Obligations.ResetMeetsInvariants :=
  ⟨⟨Memory.wf_nil, rfl, by decide, by decide, by decide, rfl⟩, rfl, rfl, nofun⟩

/-! ### The events of a command -/

/-- The event a command begins with: the first initialisation of its unit's device, if it uses one (R110, R150). -/
def startOf (i : Instr) (s : State) : List Event :=
  if isRouter i then pwmStart s else if usesDisplay i then dispStart s else []

/-- CFG alone uses neither device. -/
theorem cfg_of_neither {i : Instr} (hr : isRouter i = false) (hd : usesDisplay i = false) : ∃ dbl, i = .cfg dbl := by
  cases i with
  | cfg dbl => exact ⟨dbl, rfl⟩
  | _ => simp_all [isRouter, usesDisplay]

theorem noInit_writeEvents (ws : List (Fin 16 × TickPair)) : NoInit (writeEvents ws) := by
  constructor <;> intro h <;> obtain ⟨w, -, hw⟩ := List.mem_map.mp h <;> cases hw

/-- A renderer command that initialises the display sets its flag, appends the start and then its own events, and
touches neither the bank nor its flag nor the host's sequence. -/
theorem exec_usesDisplay_next {i : Instr} (hi : usesDisplay i = true) {s t : State} (h : exec i s = .next t) :
    ∃ evs, NoInit evs ∧ t.trace = s.trace ++ dispStart s ++ evs ∧ t.dispInit = true ∧ t.bank = s.bank ∧
      t.pwmInit = s.pwmInit ∧ t.commands = s.commands := by
  obtain ⟨o, evs, hevs, hexec⟩ := exec_usesDisplay hi s
  obtain ⟨u, -, hu⟩ := andThen_next ((hexec s s.trace).symm.trans h)
  injection hu with hu
  subst hu
  exact ⟨evs, hevs, rfl, rfl, rfl, rfl, rfl⟩

/-- Every command appends the start of its unit and then events that are no initialisation, and sets its unit's flag. -/
theorem exec_events {i : Instr} {s t : State} (h : exec i s = .next t) :
    ∃ evs, NoInit evs ∧ t.trace = s.trace ++ startOf i s ++ evs ∧ t.pwmInit = (isRouter i || s.pwmInit) ∧
      t.dispInit = (usesDisplay i || s.dispInit) := by
  cases hr : isRouter i with
  | true =>
    refine ⟨writeEvents (routerWrites i), noInit_writeEvents _, ?_⟩
    rw [startOf, if_pos hr, not_both_units hr, exec_router_frame hr h]
    exact ⟨rfl, rfl, rfl⟩
  | false =>
    cases hd : usesDisplay i with
    | true =>
      obtain ⟨evs, hevs, htrace, hdisp, -, hpwm, -⟩ := exec_usesDisplay_next hd h
      refine ⟨evs, hevs, ?_, hpwm, hdisp⟩
      rw [startOf, hr, hd, htrace]
      rfl
    | false =>
      obtain ⟨dbl, rfl⟩ := cfg_of_neither hr hd
      injection h with h
      subst h
      exact ⟨[], noInit_nil, by simp [startOf, hr, hd], rfl, rfl⟩

/-- Settles O17, from the events of a command. -/
theorem initialisationComesFirst : Obligations.InitialisationComesFirst := by
  intro i s t h
  obtain ⟨evs, ⟨hpwm, hdisp⟩, htrace, hpwmInit, hdispInit⟩ := exec_events h
  refine ⟨evs, hpwm, hdisp, fun hr => ⟨by rw [hpwmInit, hr]; rfl, ?_⟩, fun hd => ⟨by rw [hdispInit, hd]; rfl, ?_⟩⟩
  · rw [htrace, startOf, if_pos hr]
  · have hr : isRouter i = false := by
      cases hr : isRouter i with
      | false => rfl
      | true => rw [not_both_units hr] at hd; cases hd
    rw [htrace, startOf, hr, hd]
    rfl

/-- Settles O14, from the events of a command. -/
theorem flagsAndTraceOnlyGrow : Obligations.FlagsAndTraceOnlyGrow := by
  intro s t h
  rcases step_next h with rfl | ⟨w, ws, -, ⟨e, -, rfl⟩ | ⟨i, -, ht⟩⟩
  · exact ⟨fun h => h, fun h => h, List.prefix_rfl⟩
  · exact ⟨fun h => h, fun h => h, List.prefix_rfl⟩
  · obtain ⟨evs, -, htrace, hpwm, hdisp⟩ := exec_events ht
    refine ⟨fun hs => ?_, fun hs => ?_, ?_⟩
    · rw [hpwm, show ({ s with commands := ws } : State).pwmInit = true from hs, Bool.or_true]
    · rw [hdisp, show ({ s with commands := ws } : State).dispInit = true from hs, Bool.or_true]
    · rw [htrace, List.append_assoc]
      exact List.prefix_append _ _

/-! ### The two units -/

/-- Settles O16, from the frames of the two units. -/
theorem unitsAreSeparate : Obligations.UnitsAreSeparate := by
  refine fun i s t h => ⟨fun hr => ?_, fun hr => ?_⟩
  · rw [exec_router_frame hr h]
  · cases hd : usesDisplay i with
    | true =>
      obtain ⟨evs, -, -, -, hbank, hpwm, -⟩ := exec_usesDisplay_next hd h
      exact ⟨hbank, hpwm⟩
    | false =>
      obtain ⟨dbl, rfl⟩ := cfg_of_neither hr hd
      injection h with h
      subst h
      exact ⟨rfl, rfl⟩

/-- Settles O20, from the frame of each kind of command. -/
theorem whoWritesCursorAndModes : Obligations.WhoWritesCursorAndModes := by
  intro i s t h
  rcases command_kinds i with hr | hd | ⟨colour, ch, rfl⟩ | rfl | rfl | ⟨on, rfl⟩ | ⟨on, rfl⟩ | ⟨dbl, rfl⟩
  · rw [exec_router_frame hr h]
    exact ⟨fun _ _ _ => ⟨rfl, rfl⟩, fun _ => rfl, fun _ => rfl, fun _ => rfl, rfl, rfl⟩
  · rw [exec_drawing_frame hd h]
    exact ⟨fun _ _ _ => ⟨rfl, rfl⟩, fun _ => rfl, fun _ => rfl, fun _ => rfl, rfl, rfl⟩
  · obtain ⟨d, hd, rfl⟩ := exec_printch_next h
    rw [advanceCursor_frame, exec_drawch_frame hd]
    exact ⟨fun hne => absurd rfl (hne colour ch), fun _ => rfl, fun _ => rfl, fun _ => rfl, rfl, rfl⟩
  · obtain rfl : t = newLine (dispLazyInit s) := by injection h.symm.trans (exec_newline s)
    rw [newLine_frame, dispLazyInit_eq]
    exact ⟨fun _ hne => absurd rfl hne, fun _ => rfl, fun _ => rfl, fun _ => rfl, rfl, rfl⟩
  · obtain ⟨u, hu, hframe, -⟩ := clearBlanksEverything s
    obtain rfl : t = u := by injection h.symm.trans hu
    rw [hframe]
    exact ⟨fun _ _ hne => absurd rfl hne, fun _ => rfl, fun _ => rfl, fun _ => rfl, rfl, rfl⟩
  · injection h.symm.trans (invertAndDisplayPassThrough on s).1 with h
    subst h
    exact ⟨fun _ _ _ => ⟨rfl, rfl⟩, fun _ => rfl, fun hne => absurd rfl (hne on), fun _ => rfl, rfl, rfl⟩
  · injection h.symm.trans (invertAndDisplayPassThrough on s).2 with h
    subst h
    exact ⟨fun _ _ _ => ⟨rfl, rfl⟩, fun _ => rfl, fun _ => rfl, fun hne => absurd rfl (hne on), rfl, rfl⟩
  · injection h with h
    subst h
    exact ⟨fun _ _ _ => ⟨rfl, rfl⟩, fun hne => absurd rfl (hne dbl), fun _ => rfl, fun _ => rfl, rfl, rfl⟩

/-! ### What is never read -/

/-- A list of writes gives a channel one fixed pair, or leaves it alone. -/
theorem written_or_kept (ws : List (Fin 16 × TickPair)) (ch : Fin 16) :
    (∃ p, ∀ s, channel (writeAll ws s) ch = p) ∨ ∀ s, channel (writeAll ws s) ch = channel s ch := by
  induction ws with
  | nil => exact .inr fun _ => rfl
  | cons w ws ih =>
    rcases ih with ⟨p, hp⟩ | hkept
    · exact .inl ⟨p, fun s => hp _⟩
    · by_cases hch : ch = w.1
      · exact .inl ⟨w.2, fun s => by rw [writeAll_cons, hkept, channel_writeCh, if_pos hch]⟩
      · exact .inr fun s => by rw [writeAll_cons, hkept, channel_writeCh, if_neg hch]

/-- The channel writes of a router command from two states leave a channel equal, or untouched in both. -/
theorem channel_router_two_runs (ws : List (Fin 16 × TickPair)) (s s' : State) (ch : Fin 16) :
    channel (writeAll ws (pwmLazyInit s')) ch = channel (writeAll ws (pwmLazyInit s)) ch ∨
    (channel (writeAll ws (pwmLazyInit s')) ch = channel s' ch ∧
      channel (writeAll ws (pwmLazyInit s)) ch = channel s ch) := by
  rcases written_or_kept ws ch with ⟨p, hp⟩ | hkept
  · exact .inl (by rw [hp, hp])
  · exact .inr (by rw [hkept, hkept, channel_pwmLazyInit, channel_pwmLazyInit]; exact ⟨rfl, rfl⟩)

/-- Settles O18: a router command's writes do not depend on the bank, and a renderer command is blind to it. -/
theorem bankIsNeverRead : Obligations.BankIsNeverRead := by
  intro i s b
  cases hr : isRouter i with
  | true =>
    have hrun : exec i { s with bank := b } =
        .next (writeAll (routerWrites i) (pwmLazyInit { s with bank := b })) := exec_eq_writeAll hr _
    rw [exec_eq_writeAll hr s]
    refine ⟨_, hrun.trans ?_, channel_router_two_runs (routerWrites i) s { s with bank := b }⟩
    rw [writeAll_pwmLazyInit, writeAll_pwmLazyInit _ s]
    rfl
  | false =>
    cases hd : usesDisplay i with
    | true =>
      obtain ⟨o, evs, -, hexec⟩ := exec_usesDisplay hd s
      rw [show exec i s = _ from hexec s s.trace, show exec i { s with bank := b } = _ from
        hexec { s with bank := b } s.trace]
      cases o with
      | next u => exact ⟨b, rfl, fun _ => .inr ⟨rfl, rfl⟩⟩
      | fault r => rfl
      | refused r => rfl
    | false =>
      obtain ⟨dbl, rfl⟩ := cfg_of_neither hr hd
      exact ⟨b, rfl, fun _ => .inr ⟨rfl, rfl⟩⟩

/-- Settles O19: a router command appends its own writes, and a renderer command is blind to the trace. -/
theorem traceIsNeverRead : Obligations.TraceIsNeverRead := by
  intro i s tr
  cases hr : isRouter i with
  | true =>
    have hrun : exec i { s with trace := tr } =
        .next (writeAll (routerWrites i) (pwmLazyInit { s with trace := tr })) := exec_eq_writeAll hr _
    rw [exec_eq_writeAll hr s]
    refine ⟨pwmStart s ++ writeEvents (routerWrites i), ?_, hrun.trans ?_⟩
    · rw [writeAll_pwmLazyInit, List.append_assoc]
    · rw [writeAll_eq, writeAll_eq, pwmLazyInit_eq, pwmLazyInit_eq, ← List.append_assoc]
      rfl
  | false =>
    cases hd : usesDisplay i with
    | true =>
      obtain ⟨o, evs, -, hexec⟩ := exec_usesDisplay hd s
      rw [show exec i s = _ from hexec s s.trace, show exec i { s with trace := tr } = _ from hexec s tr]
      cases o with
      | next u => exact ⟨dispStart s ++ evs, List.append_assoc _ _ _, by rw [← List.append_assoc]; rfl⟩
      | fault r => rfl
      | refused r => rfl
    | false =>
      obtain ⟨dbl, rfl⟩ := cfg_of_neither hr hd
      exact ⟨[], (List.append_nil _).symm, by rw [List.append_nil]; rfl⟩

/-! ### A second execution -/

theorem bank_eq_of_channel {s t : State} (h : ∀ ch, channel t ch = channel s ch) : t.bank = s.bank :=
  Vector.ext fun i hi => h ⟨i, hi⟩

theorem exec_clear_fb {s t : State} (h : exec .clear s = .next t) : t.fb = Memory.ofPayload fun _ => 0x00 := by
  injection h.symm.trans (exec_clear s) with h
  rw [h]
  rfl

/-- Executed from `t` the command goes on and leaves every field but the trace, and every byte, as in `t`. -/
def ChangesNothingAt (i : Instr) (t : State) : Prop :=
  ∃ u, exec i t = .next u ∧ u = { t with fb := u.fb, trace := u.trace } ∧ ∀ j, fbByte u j = fbByte t j

/-- A router command's writes done again leave every channel as they left it. -/
theorem router_again {i : Instr} (hr : isRouter i = true) {s t : State} (h : exec i s = .next t) :
    ChangesNothingAt i t := by
  have ht := exec_router_next hr h
  have hflag : t.pwmInit = true := by rw [exec_router_frame hr h]
  have hu := exec_eq_writeAll hr t
  have hframe := exec_router_frame hr hu
  have hbank : (writeAll (routerWrites i) (pwmLazyInit t)).bank = t.bank := bank_eq_of_channel fun ch => by
    rcases channel_router_two_runs (routerWrites i) s t ch with heq | ⟨hkept, -⟩
    · rw [heq, ← ht]
    · exact hkept
  rw [hbank, ← hflag] at hframe
  refine ⟨_, hu, ?_, fun j => ?_⟩ <;> rw [hframe]
  rfl

/-- A painting done again leaves every byte as it left it. -/
theorem drawing_again {i : Instr} (hd : isDrawing i = true) {s t : State} (h : exec i s = .next t) :
    ChangesNothingAt i t := by
  obtain ⟨f, g, hf, hg, ht, hexec⟩ := exec_drawing_next hd h
  have hframe := exec_drawing_frame hd h
  have hflag : t.dispInit = true := by rw [hframe]
  have hu := hexec t (by rw [hframe]; exact ⟨rfl, rfl⟩)
  have huframe := exec_drawing_frame hd hu
  rw [dispLazyInit_of_dispInit hflag] at hu huframe
  rw [← hflag] at huframe
  refine ⟨_, hu, huframe, fun j => ?_⟩
  have hbytes : fbByte t = fbByte (f (dispLazyInit s)) := by rw [ht, hg.fbByte_eq]
  rw [hg.fbByte_eq, hf.again _ _ hbytes]

theorem clear_again {s t : State} (h : exec .clear s = .next t) : ChangesNothingAt .clear t := by
  obtain ⟨t', ht, htframe, -⟩ := clearBlanksEverything s
  obtain rfl : t = t' := by injection h.symm.trans ht
  obtain ⟨u, hu, huframe, -⟩ := clearBlanksEverything t
  have hcx : t.cx = 0 := by rw [htframe]
  have hcy : t.cy = 0 := by rw [htframe]
  have hflag : t.dispInit = true := by rw [htframe]
  rw [← hcx, ← hcy, ← hflag] at huframe
  refine ⟨u, hu, ?_, fun j => congrFun (fbByte_of_fb ((exec_clear_fb hu).trans (exec_clear_fb h).symm)) j⟩
  rw [huframe]

/-- Settles O21: writes and paintings done again change nothing, and both devices' flags are set the first time. -/
theorem commandsAreIdempotent : Obligations.CommandsAreIdempotent := by
  intro i s t hprint hline h
  rcases command_kinds i with hr | hd | ⟨colour, ch, rfl⟩ | rfl | rfl | ⟨on, rfl⟩ | ⟨on, rfl⟩ | ⟨dbl, rfl⟩
  · exact router_again hr h
  · exact drawing_again hd h
  · exact absurd rfl (hprint colour ch)
  · exact absurd rfl hline
  · exact clear_again h
  · injection h.symm.trans (invertAndDisplayPassThrough on s).1 with h
    subst h
    exact ⟨_, (invertAndDisplayPassThrough on _).1, rfl, fun _ => rfl⟩
  · injection h.symm.trans (invertAndDisplayPassThrough on s).2 with h
    subst h
    exact ⟨_, (invertAndDisplayPassThrough on _).2, rfl, fun _ => rfl⟩
  · injection h with h
    subst h
    exact ⟨_, rfl, rfl, fun _ => rfl⟩

end Sys2Proof.Machine
end

section
/-! PROOF. The invariants of R41 and R231 over every command and every step, where a step stops (R56, R211, R225), and
PRINTSTR (R160). -/

namespace Sys2Proof.Machine
open Sys2Proof.Config

/-! ### The state invariant -/

/-- Column 0 meets what the invariant asks of the cursor's column. -/
theorem columnZero_inv : (0 : BitVec 8).toNat ≤ 120 ∧ (0 : BitVec 8).toNat % 6 = 0 := by decide

theorem stateInv_dispLazyInit {s : State} (h : StateInv s) : StateInv (dispLazyInit s) := by
  rw [dispLazyInit_eq]
  exact h

/-- A new line puts the cursor in column 0 of a row up to 7, and a scroll tags the header (R157, R158). -/
theorem stateInv_newLine {s : State} (h : StateInv s) : StateInv (newLine s) := by
  obtain ⟨hwf, hheader, -, -, hrow, hz⟩ := h
  rw [newLine_eq]
  split
  case isTrue =>
    refine ⟨wf_scroll _, ?_, columnZero_inv.1, columnZero_inv.2, Nat.le_refl 7, hz⟩
    rw [fbByte_flushAll]
    exact (fbByte_scroll _).1
  case isFalse hlast =>
    have hcy : (BitVec.ofNat 4 (s.cy.toNat + 1)).toNat ≤ 7 := by
      rw [BitVec.toNat_ofNat]
      omega
    exact ⟨hwf, hheader, columnZero_inv.1, columnZero_inv.2, hcy, hz⟩

/-- An advanced column is a multiple of 6 up to 120, or a new line begins (R156, R161). -/
theorem stateInv_advanceCursor {s : State} (h : StateInv s) : StateInv (advanceCursor s) := by
  rw [advanceCursor_eq]
  split
  case isTrue => exact stateInv_newLine h
  case isFalse hfits =>
    obtain ⟨hwf, hheader, -, hmod, hrow, hz⟩ := h
    have hadvance : advance s.cfgDbl % 6 = 0 := by cases s.cfgDbl <;> rfl
    have hcx : (BitVec.ofNat 8 (s.cx.toNat + advance s.cfgDbl)).toNat = s.cx.toNat + advance s.cfgDbl := by
      rw [BitVec.toNat_ofNat]
      omega
    refine ⟨hwf, hheader, ?_, ?_, hrow, hz⟩ <;> simp only [hcx] <;> omega

theorem stateInv_drawing {i : Instr} (hi : isDrawing i = true) {s t : State} (hs : StateInv s)
    (h : exec i s = .next t) : StateInv t := by
  obtain ⟨f, g, hf, hg, ht, -⟩ := exec_drawing_next hi h
  obtain ⟨hwf, hheader, hcursor⟩ := hs
  have hfb : t.fb = (f (dispLazyInit s)).fb := by rw [ht, hg.frame]
  refine ⟨?_, ?_, ?_⟩
  · rw [hfb]
    exact hf.wf _ (by rw [dispLazyInit_fb]; exact hwf)
  · rw [ht, hg.fbByte_eq, (hf.only _).2 0 (.inl rfl), fbByte_dispLazyInit, hheader]
  · rw [exec_drawing_frame hi h]
    exact hcursor

/-- Every command that goes on keeps the state invariant. -/
theorem stateInv_exec {i : Instr} {s t : State} (hs : StateInv s) (h : exec i s = .next t) : StateInv t := by
  rcases command_kinds i with hr | hd | ⟨colour, ch, rfl⟩ | rfl | rfl | ⟨on, rfl⟩ | ⟨on, rfl⟩ | ⟨dbl, rfl⟩
  · rw [exec_router_frame hr h]
    exact hs
  · exact stateInv_drawing hd hs h
  · obtain ⟨d, hd, rfl⟩ := exec_printch_next h
    exact stateInv_advanceCursor (stateInv_drawing rfl hs hd)
  · injection h with h
    subst h
    exact stateInv_newLine (stateInv_dispLazyInit hs)
  · obtain ⟨u, hu, hframe, hheader, -⟩ := clearBlanksEverything s
    obtain rfl : t = u := by injection h.symm.trans hu
    obtain ⟨-, -, -, -, -, hz⟩ := hs
    refine ⟨by rw [exec_clear_fb h]; exact Memory.wf_ofPayload _, hheader, ?_⟩
    rw [hframe]
    exact ⟨columnZero_inv.1, columnZero_inv.2, Nat.zero_le 7, hz⟩
  · injection h.symm.trans (invertAndDisplayPassThrough on s).1 with h
    subst h
    exact hs
  · injection h.symm.trans (invertAndDisplayPassThrough on s).2 with h
    subst h
    exact hs
  · injection h with h
    subst h
    exact hs

/-- Settles O12: every command keeps the invariant, and it does not speak of the host's sequence. -/
theorem stepKeepsInvariant : Obligations.StepKeepsInvariant :=
  fun _ _ hs h => step_keeps (P := StateInv) (fun _ _ hs => hs) stateInv_exec hs h

/-! ### The trace invariant -/

/-- Every flush in the trace carries 1025 bytes, the header tag first (R30, R59). -/
def FlushesTagged (s : State) : Prop := ∀ img, Event.dispFlush img ∈ s.trace → img.length = 1025 ∧ img.head? = some 0x40

/-- Appended events that are no flush keep the flushes tagged. -/
theorem FlushesTagged.append {s t : State} (hs : FlushesTagged s) {evs : List Event} (ht : t.trace = s.trace ++ evs)
    (hevs : ∀ img, Event.dispFlush img ∉ evs) : FlushesTagged t := by
  intro img himg
  rw [ht, List.mem_append] at himg
  exact hs img (himg.resolve_right (hevs img))

theorem FlushesTagged.flushAll {s : State} (hs : FlushesTagged s) (hheader : fbByte s 0 = 0x40) :
    FlushesTagged (flushAll s) := by
  intro img himg
  rw [flushAll_trace, List.mem_append, List.mem_singleton] at himg
  rcases himg with himg | himg
  · exact hs img himg
  · injection himg with himg
    rw [himg, length_image, head_image, hheader]
    exact ⟨rfl, rfl⟩

theorem flush_not_mem_dispStart (s : State) (img : List Byte) : Event.dispFlush img ∉ dispStart s := by
  unfold dispStart
  split <;> simp

theorem flush_not_mem_pwmStart (s : State) (img : List Byte) : Event.dispFlush img ∉ pwmStart s := by
  unfold pwmStart
  split <;> simp

theorem flush_not_mem_writeEvents (ws : List (Fin 16 × TickPair)) (img : List Byte) :
    Event.dispFlush img ∉ writeEvents ws := by
  intro h
  obtain ⟨w, -, hw⟩ := List.mem_map.mp h
  cases hw

theorem FlushesTagged.dispLazyInit {s : State} (hs : FlushesTagged s) : FlushesTagged (dispLazyInit s) :=
  hs.append (dispLazyInit_trace s) (flush_not_mem_dispStart s)

theorem FlushesTagged.newLine {s : State} (hs : FlushesTagged s) : FlushesTagged (newLine s) := by
  rw [newLine_eq]
  split
  case isTrue =>
    have hscrolled : FlushesTagged (scroll { s with cx := 0, cy := 7 }) := hs
    exact hscrolled.flushAll (fbByte_scroll _).1
  case isFalse => exact hs

theorem FlushesTagged.advanceCursor {s : State} (hs : FlushesTagged s) : FlushesTagged (advanceCursor s) := by
  rw [advanceCursor_eq]
  split
  case isTrue => exact hs.newLine
  case isFalse => exact hs

theorem FlushesTagged.drawing {i : Instr} (hi : isDrawing i = true) {s t : State} (hs : FlushesTagged s)
    (hheader : fbByte s 0 = 0x40) (h : exec i s = .next t) : FlushesTagged t := by
  obtain ⟨f, g, hf, hg, rfl, -⟩ := exec_drawing_next hi h
  have honly := hf.only (Machine.dispLazyInit s)
  have htrace : (f (Machine.dispLazyInit s)).trace = s.trace ++ dispStart s := by rw [honly.after_init]
  have hpainted : FlushesTagged (f (Machine.dispLazyInit s)) := hs.append htrace (flush_not_mem_dispStart s)
  rcases hg with rfl | rfl | ⟨col, page, n, rfl⟩
  · exact hpainted
  · exact hpainted.flushAll (by rw [honly.2 0 (.inl rfl), fbByte_dispLazyInit, hheader])
  · exact hpainted.append (streamAt_trace col page n _) (by simp)

/-- Every command that goes on keeps the flushes tagged, as each flush sends the tagged header. -/
theorem flushesTagged_exec {i : Instr} {s t : State} (hs : FlushesTagged s) (hheader : fbByte s 0 = 0x40)
    (h : exec i s = .next t) : FlushesTagged t := by
  rcases command_kinds i with hr | hd | ⟨colour, ch, rfl⟩ | rfl | rfl | ⟨on, rfl⟩ | ⟨on, rfl⟩ | ⟨dbl, rfl⟩
  · refine hs.append (evs := pwmStart s ++ writeEvents (routerWrites i)) ?_ fun img => ?_
    · rw [exec_router_frame hr h, List.append_assoc]
    · rw [List.mem_append, not_or]
      exact ⟨flush_not_mem_pwmStart s img, flush_not_mem_writeEvents _ img⟩
  · exact hs.drawing hd hheader h
  · obtain ⟨d, hd, rfl⟩ := exec_printch_next h
    exact (hs.drawing rfl hheader hd).advanceCursor
  · injection h with h
    subst h
    exact hs.dispLazyInit.newLine
  · injection h.symm.trans (exec_clear s) with h
    subst h
    have hblank : FlushesTagged (clearFb { Machine.dispLazyInit s with cx := 0, cy := 0 }) := hs.dispLazyInit
    exact hblank.flushAll (fbByte_clearFb _).1
  · injection h with h
    subst h
    exact hs.dispLazyInit.append (emit_trace _ _) (by simp)
  · injection h with h
    subst h
    exact hs.dispLazyInit.append (emit_trace _ _) (by simp)
  · injection h with h
    subst h
    exact hs

/-- An initialisation of the PWM bank is in the trace once more exactly when the command set its flag (R231). -/
theorem count_pwmInit_startOf (i : Instr) (s : State) : (if s.pwmInit then 1 else 0) + (startOf i s).count .pwmInit =
    if isRouter i || s.pwmInit then 1 else 0 := by
  cases hr : isRouter i with
  | true =>
    unfold startOf pwmStart
    rw [if_pos hr]
    cases s.pwmInit <;> rfl
  | false =>
    have hnone : (startOf i s).count .pwmInit = 0 := by
      unfold startOf dispStart
      rw [hr]
      cases usesDisplay i <;> cases s.dispInit <;> rfl
    rw [hnone, Nat.add_zero, Bool.false_or]

/-- The same for the display. -/
theorem count_dispInit_startOf (i : Instr) (s : State) : (if s.dispInit then 1 else 0) + (startOf i s).count .dispInit =
    if usesDisplay i || s.dispInit then 1 else 0 := by
  cases hr : isRouter i with
  | true =>
    have hnone : (startOf i s).count .dispInit = 0 := by
      unfold startOf pwmStart
      rw [if_pos hr]
      cases s.pwmInit <;> rfl
    rw [hnone, Nat.add_zero, not_both_units hr, Bool.false_or]
  | false =>
    unfold startOf dispStart
    rw [hr]
    cases usesDisplay i <;> cases s.dispInit <;> rfl

/-- Every command that goes on from a tagged header keeps the trace invariant. -/
theorem traceInv_exec {i : Instr} {s t : State} (hheader : fbByte s 0 = 0x40) (hs : TraceInv s)
    (h : exec i s = .next t) : TraceInv t := by
  obtain ⟨hpwm, hdisp, hflush⟩ := hs
  obtain ⟨evs, ⟨hnopwm, hnodisp⟩, htrace, hpwmInit, hdispInit⟩ := exec_events h
  refine ⟨?_, ?_, flushesTagged_exec hflush hheader h⟩
  · rw [htrace, List.count_append, List.count_append, List.count_eq_zero.mpr hnopwm, hpwm, hpwmInit, Nat.add_zero,
      count_pwmInit_startOf]
  · rw [htrace, List.count_append, List.count_append, List.count_eq_zero.mpr hnodisp, hdisp, hdispInit, Nat.add_zero,
      count_dispInit_startOf]

/-- Settles O13: both invariants are kept together, as the tag of a flush is the header of the state. -/
theorem stepKeepsTraceInvariant : Obligations.StepKeepsTraceInvariant := by
  intro s t hstate htrace h
  have hboth : StateInv t ∧ TraceInv t := step_keeps (P := fun s => StateInv s ∧ TraceInv s) (fun _ _ hs => hs)
    (fun hs h => ⟨stateInv_exec hs.1 h, traceInv_exec hs.1.2.1 hs.2 h⟩) ⟨hstate, htrace⟩ h
  exact hboth.2

/-! ### Where a step stops -/

/-- The command would leave the picture: a pixel or a glyph outside it (R56, R211). -/
def leavesPicture (s : State) : Instr → Bool
  | .setpx _ x y => 127 < x || 63 < y
  | .drawch _ _ col row => glyphLeaves s.cfgDbl col row
  | .printch _ _ => glyphLeaves s.cfgDbl s.cx.toNat s.cy.toNat
  | _ => false

theorem mem_condition {p : Bool} {k k' : Condition} : k ∈ condition p k' ↔ p = true ∧ k = k' := by
  cases p <;> simp [condition]

theorem fbOob_mem_conditionsOf (i : Instr) (s : State) : .fbOob ∈ conditionsOf i s ↔ leavesPicture s i = true := by
  cases i <;> simp [conditionsOf, mem_condition, leavesPicture]

theorem exec_of_leavesPicture {i : Instr} {s : State} (hz : s.cfgZoom = false) (h : leavesPicture s i = true) :
    exec i s = .fault .fbOob := by
  cases i with
  | setpx colour x y => exact exec_setpx_fault (by simpa [leavesPicture] using h) colour s
  | drawch colour ch col row => exact exec_drawch_fault hz h colour ch
  | printch colour ch => exact exec_printch_fault hz h colour ch
  | _ => cases h

/-- A command that does not leave the picture goes on. -/
theorem exec_goes_on {i : Instr} {s : State} (hz : s.cfgZoom = false) (h : leavesPicture s i = false) :
    ∃ t, exec i s = .next t := by
  cases i with
  | drvm _ _ _ | mec _ _ | nrm _ _ | stpm _ | stpa | srv _ _ | step _ _ _ => exact ⟨_, exec_eq_writeAll rfl s⟩
  | setpx colour x y =>
    have hin : x ≤ 127 ∧ y ≤ 63 := by simpa [leavesPicture] using h
    exact ⟨_, exec_setpx_next hin.1 hin.2 colour s⟩
  | drawch colour ch col row => exact (exec_drawch_next_iff hz colour ch col row).mpr h
  | printch colour ch =>
    obtain ⟨d, hd⟩ := (exec_drawch_next_iff hz colour ch _ _).mpr h
    exact ⟨advanceCursor d, by rw [exec_printch, hd, andThen_of_next]⟩
  | newline | hline _ _ _ _ | vline _ _ _ _ | rect _ _ _ _ _ | clear | invert _ | display _ | flush | cfg _ =>
    exact ⟨_, rfl⟩

/-- The condition on the next word of a sequence is one on its first word. -/
theorem exists_next_word {w : CmdWord} {ws : List CmdWord} {p : CmdWord → Prop} :
    (∃ w' ws', w :: ws = w' :: ws' ∧ p w') ↔ p w := by
  constructor
  · rintro ⟨w', ws', heq, hp⟩
    obtain ⟨rfl, rfl⟩ := List.cons.inj heq
    exact hp
  · exact fun hp => ⟨w, ws, rfl, hp⟩

theorem conditions_of_error {w : CmdWord} {e : Illegal} (h : decode w = .error e) (s : State) :
    conditions w s = [.illegalWord] := by
  simp only [conditions, h]

theorem conditions_of_ok {w : CmdWord} {i : Instr} (h : decode w = .ok i) (s : State) :
    conditions w s = conditionsOf i s := by
  simp only [conditions, h]

/-- Settles O15: the condition of R211 is that the command leaves the picture. -/
theorem stepStopsExactlyOutOfPicture : Obligations.StepStopsExactlyOutOfPicture := by
  rintro s ⟨-, -, -, -, -, hz⟩
  cases hw : s.commands with
  | nil =>
    have hstep := step_of_no_command hz hw
    exact ⟨iff_of_false (by rw [hstep]; nofun) nofun, .inr ⟨s, hstep⟩⟩
  | cons w ws =>
    rw [exists_next_word]
    cases hd : decode w with
    | error e =>
      have hstep := illegalWordChangesNothing s w ws e hz hw hd
      rw [conditions_of_error hd]
      exact ⟨iff_of_false (by rw [hstep]; nofun) (by decide), .inr ⟨_, hstep⟩⟩
    | ok i =>
      rw [conditions_of_ok hd, fbOob_mem_conditionsOf, stepRunsDecodedCommand s w ws i hz hw hd]
      cases hleaves : leavesPicture s i with
      | true =>
        have hfault : exec i { s with commands := ws } = .fault .fbOob := exec_of_leavesPicture hz hleaves
        exact ⟨iff_of_true hfault rfl, .inl hfault⟩
      | false =>
        obtain ⟨t, ht⟩ := exec_goes_on (i := i) (s := { s with commands := ws }) hz hleaves
        exact ⟨iff_of_false (by rw [ht]; nofun) nofun, .inr ⟨t, ht⟩⟩

/-! ### PRINTSTR -/

/-- In single size the invariant's cursor is where a glyph fits, so text never stops (R160 (c)). -/
theorem issue_printch_goes_on (colour : Bool) (text : List Nat) (rest : List Instr)
    (hrest : ∀ s, StateInv s → ∃ t, issue rest s = .next t ∧ StateInv t) {s : State} (hs : StateInv s)
    (hd : s.cfgDbl = false) :
    ∃ t, issue (text.map (fun ch => .printch colour ch) ++ rest) s = .next t ∧ StateInv t := by
  induction text generalizing s with
  | nil => exact hrest s hs
  | cons ch text ih =>
    have hinv := hs
    obtain ⟨-, -, hcx, -, hcy, hz⟩ := hinv
    have hfits : leavesPicture s (.printch colour ch) = false := by
      simp only [leavesPicture, hd]
      exact glyphLeaves_single_eq_false.mpr (by omega)
    obtain ⟨u, hu⟩ := exec_goes_on hz hfits
    have hdbl : u.cfgDbl = s.cfgDbl := (whoWritesCursorAndModes _ s u hu).2.1 nofun
    obtain ⟨t, ht, hkept⟩ := ih (stateInv_exec hs hu) (hdbl.trans hd)
    exact ⟨t, by rw [List.map_cons, List.cons_append, issue, hu, andThen_of_next, ht], hkept⟩

/-- Settles O49: NEWLINE never stops, and no more does a PRINTCH within the invariant. -/
theorem printstrSingleNeverStops : Obligations.PrintstrSingleNeverStops := by
  intro text newline colour s hs hd
  refine issue_printch_goes_on colour text _ (fun s hs => ?_) hs hd
  cases newline with
  | false => exact ⟨s, rfl, hs⟩
  | true => exact ⟨_, rfl, stateInv_exec hs (exec_newline s)⟩

end Sys2Proof.Machine
end

section
/-! PROOF. The display's picture (R72, R160 (c), R232, R241): a full flush delivers the framebuffer, and in single size
every command delivers what it changes. -/

namespace Sys2Proof.Machine
open Sys2Proof.Config

/-! ### Full flushes -/

theorem picture_newLine_of_bottom {s : State} (h : 7 ≤ s.cy.toNat) :
    picture (newLine s).trace = some (image (newLine s)) := by
  rw [newLine_of_bottom h]
  exact picture_flushAll _

/-- A command that is a full flush of some state leaves the display showing the framebuffer. -/
theorem picture_of_flushed {i : Instr} {s t u : State} (h : exec i s = .next t) (hu : exec i s = .next (flushAll u)) :
    picture t.trace = some (image t) := by
  obtain rfl : t = flushAll u := by injection h.symm.trans hu
  exact picture_flushAll u

/-- Settles O58: each of these commands ends in a full flush. -/
theorem fullFlushDeliversEverything : Obligations.FullFlushDeliversEverything := by
  intro i s t hi h
  rcases hi with ⟨c, x, y, n, rfl | rfl⟩ | ⟨c, x1, y1, x2, y2, rfl⟩ | rfl | rfl | ⟨rfl, hrow⟩ | ⟨c, ch, rfl, hrow, hcol⟩
  · exact picture_of_flushed h rfl
  · exact picture_of_flushed h rfl
  · exact picture_of_flushed h rfl
  · exact picture_of_flushed h rfl
  · exact picture_of_flushed h rfl
  · obtain rfl : t = newLine (dispLazyInit s) := by injection h.symm.trans (exec_newline s)
    exact picture_newLine_of_bottom (by rw [dispLazyInit_cy]; exact hrow)
  · obtain ⟨d, hd, rfl⟩ := exec_printch_next h
    have hframe := exec_drawch_frame hd
    have hcx : d.cx = s.cx := by rw [hframe]
    have hcy : d.cy = s.cy := by rw [hframe]
    have hdbl : d.cfgDbl = s.cfgDbl := by rw [hframe]
    rw [advanceCursor_eq, hcx, hdbl, advance_eq, if_pos hcol]
    exact picture_newLine_of_bottom (by rw [hcy]; exact hrow)

/-- Settles O60, from STPA and CLEAR one after the other. -/
theorem stpaThenClearMakesKnown : Obligations.StpaThenClearMakesKnown := by
  intro s
  obtain ⟨u, hu, ⟨huframe, -, hservo⟩, hmotor⟩ := stpaStopsAllMotors s
  obtain ⟨t, ht, htframe, hheader, hpayload⟩ := clearBlanksEverything u
  have hchannel : channel t = channel u := channel_of_bank (by rw [htframe])
  refine ⟨t, ?_, ?_, fun ch hch => ?_, fun ch hch => ?_, hheader, hpayload, picture_of_flushed ht rfl⟩
  · rw [issue, hu, andThen_of_next, issue, ht, andThen_of_next, issue]
  · rw [htframe, huframe]
  · rw [hchannel, hmotor ch hch]
  · rw [hchannel, hservo ch hch]

/-! ### Single size -/

/-- The display shows the framebuffer (R72). -/
def Current (s : State) : Prop := picture s.trace = some (image s)

/-- Events that carry no picture bytes, with the framebuffer unchanged, keep the display current (R241). -/
theorem Current.append_silent {s t : State} (hs : Current s) {evs : List Event} (ht : t.trace = s.trace ++ evs)
    (hfb : t.fb = s.fb) (hevs : ∀ e ∈ evs, ∀ p, showEvent p e = p) : Current t := by
  have hsilent : ∀ p, evs.foldl showEvent p = p := by
    clear ht
    induction evs with
    | nil => exact fun _ => rfl
    | cons e evs ih =>
      obtain ⟨he, hevs⟩ := List.forall_mem_cons.mp hevs
      exact fun p => by rw [List.foldl_cons, he, ih hevs]
  rw [Current, ht, picture_append, hsilent, hs, image_of_fbByte (fbByte_of_fb hfb)]

theorem current_setpx {x y : Nat} (hx : x ≤ 127) (hy : y ≤ 63) (colour : Bool) {s : State} (hs : Current s) :
    Current (streamAt x (y / 8) 1 (plot x y colour s)) := by
  have htrace : (plot x y colour s).trace = s.trace := by rw [(OnlyPayload.plot x y colour s).1]
  exact picture_streamAt hs htrace (by omega) (by omega) fun i hi => fbByte_plot_of_ne x y colour s (by omega)

theorem current_singleGlyph {col row : Nat} (hr : row ≤ 7) (hc : col ≤ 122) (R : Roms) (ch : Nat) (q : Bool) {s : State}
    (hs : Current s) : Current (streamAt col row 6 (singleGlyph R ch col row q s)) := by
  have htrace : (singleGlyph R ch col row q s).trace = s.trace := by rw [(OnlyPayload.singleGlyph R ch q s hr hc).1]
  refine picture_streamAt hs htrace (by omega) hr fun i hi => ?_
  rw [fbByte_singleGlyph, if_neg (by omega)]

/-- A drawing command in single size flushes everything, or streams every byte it changes. -/
theorem current_drawing {i : Instr} (hi : isDrawing i = true) {s t : State} (hd : s.cfgDbl = false)
    (hinit : s.dispInit = true) (hs : Current s) (h : exec i s = .next t) : Current t := by
  cases i with
  | setpx colour x y =>
    obtain ⟨hx, hy, rfl⟩ := execSetpx_next h
    rw [dispLazyInit_of_dispInit hinit]
    exact current_setpx hx hy colour hs
  | drawch colour ch col row =>
    obtain ⟨-, ⟨-, hr, hc, rfl⟩ | ⟨hdbl, -⟩⟩ := execDrawch_next h
    · rw [dispLazyInit_of_dispInit hinit]
      exact current_singleGlyph hr hc Config.roms ch colour hs
    · rw [hd] at hdbl
      cases hdbl
  | hline colour x y len => exact picture_of_flushed h rfl
  | vline colour x y len => exact picture_of_flushed h rfl
  | rect colour x1 y1 x2 y2 => exact picture_of_flushed h rfl
  | flush => exact picture_of_flushed h rfl
  | _ => cases hi

/-- A new line moves the cursor alone, or scrolls and flushes. -/
theorem current_newLine {s : State} (hs : Current s) : Current (newLine s) := by
  by_cases hrow : 7 ≤ s.cy.toNat
  · exact picture_newLine_of_bottom hrow
  · rw [newLine_eq, if_neg (by omega)]
    exact hs

theorem current_advanceCursor {s : State} (hs : Current s) : Current (advanceCursor s) := by
  rw [advanceCursor_eq]
  split
  case isTrue => exact current_newLine hs
  case isFalse => exact hs

/-- The events of a router command carry no picture bytes. -/
theorem showEvent_router {s : State} {ws : List (Fin 16 × TickPair)} {e : Event} (he : e ∈ pwmStart s ++ writeEvents ws)
    (p : Option (List Byte)) : showEvent p e = p := by
  rcases List.mem_append.mp he with he | he
  · unfold pwmStart at he
    split at he
    · cases he
    · rw [List.mem_singleton.mp he]
      rfl
  · obtain ⟨w, -, rfl⟩ := List.mem_map.mp he
    rfl

/-- In single size every command keeps an initialised display current (R160 (c)). -/
theorem current_exec {i : Instr} {s t : State} (hd : s.cfgDbl = false) (hinit : s.dispInit = true) (hs : Current s)
    (h : exec i s = .next t) : Current t := by
  have hlazy := dispLazyInit_of_dispInit hinit
  rcases command_kinds i with hr | hdraw | ⟨colour, ch, rfl⟩ | rfl | rfl | ⟨on, rfl⟩ | ⟨on, rfl⟩ | ⟨dbl, rfl⟩
  · refine hs.append_silent (evs := pwmStart s ++ writeEvents (routerWrites i)) ?_ ?_ fun e he => showEvent_router he
    · rw [exec_router_frame hr h, List.append_assoc]
    · rw [exec_router_frame hr h]
  · exact current_drawing hdraw hd hinit hs h
  · obtain ⟨d, hdraw, rfl⟩ := exec_printch_next h
    exact current_advanceCursor (current_drawing rfl hd hinit hs hdraw)
  · obtain rfl : t = newLine (dispLazyInit s) := by injection h.symm.trans (exec_newline s)
    rw [hlazy]
    exact current_newLine hs
  · exact picture_of_flushed h rfl
  · injection h with h
    subst h
    rw [hlazy]
    exact hs.append_silent (emit_trace _ _) rfl (by simp [showEvent])
  · injection h with h
    subst h
    rw [hlazy]
    exact hs.append_silent (emit_trace _ _) rfl (by simp [showEvent])
  · injection h with h
    subst h
    exact hs

/-- A command other than CFG 1 stays in single size (R187). -/
theorem single_exec {i : Instr} {s t : State} (hd : s.cfgDbl = false) (h : exec i s = .next t) (hi : i ≠ .cfg true) :
    t.cfgDbl = false := by
  by_cases hcfg : ∃ dbl, i = .cfg dbl
  · obtain ⟨dbl, rfl⟩ := hcfg
    injection h with h
    subst h
    cases dbl with
    | false => rfl
    | true => exact absurd rfl hi
  · exact ((whoWritesCursorAndModes i s t h).2.1 fun dbl heq => hcfg ⟨dbl, heq⟩).trans hd

theorem dispInit_exec {i : Instr} {s t : State} (hinit : s.dispInit = true) (h : exec i s = .next t) :
    t.dispInit = true := by
  obtain ⟨-, -, -, -, hdisp⟩ := exec_events h
  rw [hdisp, hinit, Bool.or_true]

/-- Settles O59: every command keeps an initialised display current, so every step does. -/
theorem singleSizeKeepsDisplayCurrent : Obligations.SingleSizeKeepsDisplayCurrent := by
  have hexec : ∀ (i : Instr) (s t : State), s.cfgDbl = false → s.dispInit = true → Current s → exec i s = .next t →
      t.dispInit = true ∧ Current t ∧ (i ≠ .cfg true → t.cfgDbl = false) := fun i s t hd hinit hs h =>
    ⟨dispInit_exec hinit h, current_exec hd hinit hs h, single_exec hd h⟩
  refine ⟨hexec, fun s t hd hinit hs h => ?_⟩
  rcases step_next h with rfl | ⟨w, ws, hw, ⟨e, -, rfl⟩ | ⟨i, hi, ht⟩⟩
  · exact ⟨hinit, hs, fun _ => hd⟩
  · exact ⟨hinit, hs, fun _ => hd⟩
  · obtain ⟨hinit', hs', hd'⟩ := hexec i { s with commands := ws } t hd hinit hs ht
    exact ⟨hinit', hs', fun hcfg => hd' fun heq => hcfg w ws hw (heq ▸ hi)⟩

end Sys2Proof.Machine
end
